-- ==== Sys2Proof/Word.lean ====
section
/-! DEFINITION. The machine's two data sizes (00_scope.md R5: REGW, BANKW, FLAGW). -/

namespace Sys2Proof

/-- A byte: also a bank number (BANKW) and the flag register (FLAGW), 00_scope.md R5. -/
abbrev Byte := BitVec 8

/-- A 16-bit register or offset (REGW), 00_scope.md R5. -/
abbrev Word := BitVec 16

end Sys2Proof
end

