-- ==== Sys2Proof/Syntax.lean ====
section
/-! DEFINITION. Widths, values of a width, and the instructions: one constructor for each row of spec/opcode_table.json. -/

namespace Sys2Proof

/-- The width discriminator (40_width_dispatch.md R90). -/
inductive Width where
  | w8
  | w16
  deriving DecidableEq, Repr

/-- A value "of width W": a bit vector of `bits(W)` bits (R90). -/
inductive Value where
  | b8 (v : Byte)
  | b16 (v : Word)
  deriving DecidableEq, Repr

/-- The width a value has (R90). -/
def Value.width : Value → Width
  | .b8 _ => .w8
  | .b16 _ => .w16

/-- The instructions of 30_encoding.md R76, each with the operands R78 assembles for it. -/
inductive Instr where
  /-- `SEI`, 0x78, format IMPL (R125). -/
  | sei
  /-- `BRA disp`, 0x80, format REL8: the displacement byte as encoded (R130). -/
  | braDisp (disp : Byte)
  /-- `STZ addr`, 0x9C, format ABS: the 16-bit offset (R117). -/
  | stzAddr (addr : Word)
  /-- `LDA #imm`, 0xA9, format IMM_M: an immediate of the width `flags.M` selects (R115). -/
  | ldaImm (imm : Value)
  /-- `LDA addr`, 0xAD, format ABS: the 16-bit offset (R116). -/
  | ldaAddr (addr : Word)
  deriving DecidableEq, Repr

end Sys2Proof
end

