-- ==== Sys2Proof/Machine/Bits.lean ====
section
/-! DEFINITION. Byte extraction, concatenation and extension (00_scope.md R6). -/

namespace Sys2Proof

/-- `lo8(v)` is `v[7:0]` (R6). -/
def lo8 (v : Word) : Byte := v.extractLsb' 0 8

/-- `hi8(v)` is `v[15:8]` (R6). -/
def hi8 (v : Word) : Byte := v.extractLsb' 8 8

/-- `{h, l}`: the 16-bit value `h * 256 + l` (R6). -/
def cat16 (h l : Byte) : Word := h ++ l

/-- `sext_16(v)`: widen by copying the top bit (R6). -/
def sext16 (v : Byte) : Word := v.signExtend 16

end Sys2Proof
end

