-- ==== Sys2Proof/Config.lean ====
section
/-! DEFINITION. The implementation parameters of 00_scope.md R5, and the open ones as constants with no body. -/

namespace Sys2Proof.Config

/-- `RAM_SIZE`, R5, R23 (the spec's decision D3). -/
def ramSize : Nat := 0x20000

/-- `HIGH_BASE`, the RAM index of bank 0x7F offset 0, R5, R23 (D3). -/
def highBase : Nat := 0x10000

/-- `LOWRAM_BANK_HI`, the last bank whose low offsets mirror low RAM (the first is 0x00), R5. -/
def lowRamBankHi : Byte := 0x3F

/-- `LOWRAM_OFF_HI`, the last mirrored offset in those banks, R5. -/
def lowRamOffHi : Word := 0x1FFF

/-- `RAM_BANK_LOW`, R5. -/
def ramBankLow : Byte := 0x7E

/-- `RAM_BANK_HIGH`, R5. -/
def ramBankHigh : Byte := 0x7F

/-- The locations of the one address space: 2^24 byte-sized locations, R40. -/
def addressSpace : Nat := 0x1000000

/-- `SP_RESET`, R5, R28 (D6). -/
def spReset : Word := 0x01FF

/-- `flags` after reset: `flags.I` set, every other flag clear, R28 (I: the source; the others: D7; bit 2: D1). -/
def flagsReset : Byte := 0x04

/-- `RESET_VECTOR_BANK`, R5, R171 (D23). -/
def resetVectorBank : Byte := 0x00

/-- `RESET_VECTOR_OFFSET`, R5, R171 (D5). -/
def resetVectorOffset : Word := 0xFFFC

/-- `TITLE_BANK`, R5, R176 (D16, D23). -/
def titleBank : Byte := 0x00

/-- `TITLE_OFFSET`, R5, R176 (D16). -/
def titleOffset : Word := 0xFFC0

/-- `TITLE_LEN`, R5, R176. -/
def titleLen : Nat := 21

/-- `OPC_SEI`, R5. -/
def opcSei : Byte := 0x78

/-- `OPC_BRA`, R5. -/
def opcBra : Byte := 0x80

/-- `OPC_STZ_ABS`, R5 (D8: the spec takes the byte from general knowledge). -/
def opcStzAbs : Byte := 0x9C

/-- `OPC_LDA_IMM`, R5. -/
def opcLdaImm : Byte := 0xA9

/-- `OPC_LDA_ABS`, R5. -/
def opcLdaAbs : Byte := 0xAD

/-- DESIGN CHOICE (log entry 2, unsafe): the `RAM_FILL` of `State.reset`. The spec leaves the byte OPEN in 0x01..0xFF (D4)
and names 0x55 as a concrete default a simulator may take. -/
def resetRamFill : Byte := 0x55

/-- DESIGN CHOICE (log entry 3, unsafe): what the cartridge of `State.reset` answers at every address. -/
def resetCartridgeByte : Byte := 0x00

/-- `STEPS_PER_FRAME`, OPEN (R5, R138, D15): no value is chosen (log entry 8). -/
opaque stepsPerFrame : Nat

/-- `Mapper.read` of an arbitrary cartridge (R44), over that cartridge's own state written as bytes. OPEN: the Mapper is a
parameter (D12), so nothing is known of this function but that it is total and changes no state (log entry 4). -/
opaque customRead : List Byte → Byte → Word → Byte

/-- `Mapper.write` of an arbitrary cartridge (R44): the new state, or `none` for `Unsupported`. OPEN (log entry 4). -/
opaque customWrite : List Byte → Byte → Word → Byte → Option (List Byte)

end Sys2Proof.Config
end

