-- ==== Sys2Proof/Machine/Memory.lean ====
section
/-! DEFINITION. Byte storage as canonical plain data: the RAM region and a cartridge's image. -/

namespace Sys2Proof.Machine

/-- Bytes by index: the listed cells, and `fill` everywhere else. In the one canonical form (`Memory.wf`) the cells rise
strictly and none holds `fill`, so equal contents are equal data. -/
structure Memory where
  cells : List Host.Cell
  fill : Byte
  deriving DecidableEq, Repr

/-- The cell listed for index `i`, if any. -/
def Memory.find (i : Nat) : List Host.Cell → Option Byte
  | [] => none
  | (k, v) :: rest => if k = i then some v else Memory.find i rest

/-- The byte at index `i`: what an unlisted index reads as is `fill`, here and nowhere else. -/
def Memory.read (m : Memory) (i : Nat) : Byte := (Memory.find i m.cells).getD m.fill

/-- Put a cell into its place in a rising list. -/
def Memory.insert (i : Nat) (b : Byte) : List Host.Cell → List Host.Cell
  | [] => [(i, b)]
  | (k, v) :: rest =>
    if i < k then (i, b) :: (k, v) :: rest
    else if i = k then (i, b) :: rest
    else (k, v) :: Memory.insert i b rest

/-- Remove the cells of index `i`. -/
def Memory.erase (i : Nat) : List Host.Cell → List Host.Cell
  | [] => []
  | (k, v) :: rest => if k = i then Memory.erase i rest else (k, v) :: Memory.erase i rest

/-- Write one byte, keeping the canonical form: writing `fill` removes the entry. -/
def Memory.write (m : Memory) (i : Nat) (b : Byte) : Memory :=
  { m with cells := if b = m.fill then Memory.erase i m.cells else Memory.insert i b m.cells }

/-- The canonical form, for indices below `bound`. -/
abbrev Memory.wf (bound : Nat) (m : Memory) : Prop :=
  m.cells.Pairwise (fun p q => p.1 < q.1) ∧ ∀ c ∈ m.cells, c.1 < bound ∧ c.2 ≠ m.fill

end Sys2Proof.Machine
end

