-- ==== Sys2Proof/Machine/Mapper.lean ====
section
/-! DEFINITION. The cartridge Mapper: the machine's one external component (20_memory.md R44, R45). -/

namespace Sys2Proof.Machine

/-- A range of full addresses, first and last included, whose writes a cartridge declares that it supports. -/
structure Window where
  first : Nat
  last : Nat
  deriving DecidableEq, Repr

/-- The state of the one Mapper the core owns (10_state.md R24), as plain data. R44 makes the Mapper a parameter; the three
constructors are three instances of its interface (log entry 4). -/
inductive Mapper where
  /-- The ROM-only Mapper of R45: its read is a fixed function of the image, every write is `Unsupported`. -/
  | romOnly (image : Memory)
  /-- DESIGN CHOICE: a cartridge with save RAM: an image that takes writes exactly in its declared windows ("an explicit,
  mapper-declared capability", R44). -/
  | saveRam (image : Memory) (windows : List Window)
  /-- Any other Mapper of R44: its state as bytes, its read and write the open functions of `Config`. -/
  | custom (data : List Byte)
  deriving DecidableEq, Repr

/-- The number of the full address `(bank, off)` among the 2^24 locations (R40). -/
def fullAddress (bank : Byte) (off : Word) : Nat := bank.toNat * 0x10000 + off.toNat

/-- `Mapper.read`: total, and changes no state (R44). -/
def Mapper.read (m : Mapper) (bank : Byte) (off : Word) : Byte :=
  match m with
  | .romOnly image => image.read (fullAddress bank off)
  | .saveRam image _ => image.read (fullAddress bank off)
  | .custom data => Config.customRead data bank off

/-- Whether a cartridge's declared windows hold a full address. -/
def Window.covers (windows : List Window) (a : Nat) : Bool :=
  windows.any fun w => decide (w.first ≤ a) && decide (a ≤ w.last)

/-- `Mapper.write`: `some m'` for `Ok(m')`, `none` for `Unsupported` (R44); the ROM-only Mapper answers `none` to every
write (R45). -/
def Mapper.write (m : Mapper) (bank : Byte) (off : Word) (b : Byte) : Option Mapper :=
  match m with
  | .romOnly _ => none
  | .saveRam image windows =>
    if Window.covers windows (fullAddress bank off) then
      some (.saveRam (image.write (fullAddress bank off) b) windows)
    else none
  | .custom data => (Config.customWrite data bank off b).map .custom

/-- The images a Mapper holds as `Memory`. -/
def Mapper.images : Mapper → List Memory
  | .romOnly image => [image]
  | .saveRam image _ => [image]
  | .custom _ => []

/-- Every image is in its canonical form over the 2^24 locations. -/
abbrev Mapper.wf (m : Mapper) : Prop := ∀ image ∈ m.images, image.wf Config.addressSpace

end Sys2Proof.Machine
end

