-- ==== Sys2Proof/Machine/Bus.lean ====
section
/-! DEFINITION. Address decode and bus reads, over the two things behind the bus (20_memory.md R41, R42, R47). -/

namespace Sys2Proof.Machine

/-- What lies behind a full address (R41). -/
inductive Target where
  /-- The cell `RAM[i]`. -/
  | ram (i : Nat)
  /-- The Mapper, asked with this pair. -/
  | mapper (bank : Byte) (off : Word)
  deriving DecidableEq, Repr

/-- `Decode(bank, off)`, the four cases of R41 in their order (`HIGH_BASE`: D3). -/
def busDecode (bank : Byte) (off : Word) : Target :=
  if bank ≤ Config.lowRamBankHi ∧ off ≤ Config.lowRamOffHi then .ram off.toNat
  else if bank = Config.ramBankLow then .ram off.toNat
  else if bank = Config.ramBankHigh then .ram (Config.highBase + off.toNat)
  else .mapper bank off

/-- `BusRead` over RAM and Mapper: one byte, no state change, no fault (R42). -/
def readBus (ram : Memory) (mapper : Mapper) (bank : Byte) (off : Word) : Byte :=
  match busDecode bank off with
  | .ram i => ram.read i
  | .mapper k o => mapper.read k o

/-- `MemRead(_, 2)` over RAM and Mapper: low byte first, second byte at `off + 1` modulo 0x10000 in the same bank (R47;
byte order R46, D2). -/
def readBus16 (ram : Memory) (mapper : Mapper) (bank : Byte) (off : Word) : Word :=
  cat16 (readBus ram mapper bank (off + 1)) (readBus ram mapper bank off)

end Sys2Proof.Machine
end

