-- ==== Sys2Proof/Machine/State.lean ====
section
/-! DEFINITION. Every piece of state of 10_state.md, the reasons a run stops, and the machine after reset. -/

namespace Sys2Proof.Machine

/-- The two faults of 60_exceptions.md R150. They are the reasons `State.halt` records (R25); the step that raises one
answers the NEXT state with `halt` written (R153), so `step` never answers `Outcome.fault` (log entry 1). -/
inductive Fault where
  /-- R151: raised by `step` when the opcode byte has no row in the table: bank, offset and byte. Safe: nothing but `halt`
  changes and no later step does anything. -/
  | unimplementedInstruction (pb : Byte) (pc : Word) (opcode : Byte)
  /-- R152: raised by a bus write the Mapper answers with `Unsupported` (STZ only): bank, offset and the byte that was to be
  written. Safe: the run ends there. -/
  | unsupportedMapperWrite (bank : Byte) (off : Word) (byte : Byte)
  deriving DecidableEq, Repr

/-- Why an instruction has no meaning. -/
inductive Refusal where
  /-- The arm of an instruction not modelled yet; no arm of this model uses it. Safe: the run ends there. -/
  | notModelled (mnemonic : String)
  deriving DecidableEq, Repr

/-- The halt status of R25 (the spec's decision D9). -/
inductive Halt where
  | running
  | halted (reason : Fault)
  deriving DecidableEq, Repr

/-- The state tuple of 10_state.md; "Nothing else is state" (R26). -/
structure State where
  /-- Accumulator, 16 bits of storage (R10). -/
  a : Word
  /-- Index register (R11). -/
  x : Word
  /-- Index register (R12). -/
  y : Word
  /-- Direct-page base (R13). -/
  dp : Word
  /-- Stack pointer (R14). -/
  sp : Word
  /-- Data bank (R15). -/
  db : Byte
  /-- Program counter: the offset in bank `pb` of the next instruction-stream byte (R16). -/
  pc : Word
  /-- Program bank (R17). -/
  pb : Byte
  /-- The eight flags, bit 0 to bit 7: C Z I D X M V N (R18, R19, D1). -/
  flags : Byte
  /-- The RAM region by RAM index; `ram.fill` is the session's `RAM_FILL` (R23, R28). -/
  ram : Memory
  /-- The cartridge's own state (R24). -/
  mapper : Mapper
  /-- The halt status (R25). -/
  halt : Halt
  deriving DecidableEq, Repr

/-- `Reset(m)`: the construction of a session from a Mapper, with `RAM_FILL` the byte `fill` (70_reset_and_hazards.md R170,
10_state.md R28). -/
def State.construct (fill : Byte) (m : Mapper) : State :=
  { a := 0, x := 0, y := 0, dp := 0
    sp := Config.spReset
    db := 0
    pc := readBus16 ⟨[], fill⟩ m Config.resetVectorBank Config.resetVectorOffset
    pb := 0
    flags := Config.flagsReset
    ram := ⟨[], fill⟩
    mapper := m
    halt := .running }

/-- The machine right after reset. The spec leaves `RAM_FILL` and the Mapper open; DESIGN CHOICE here: 0x55 (log entry 2),
and a ROM-only cartridge whose every byte is 0x00 (log entry 3). -/
def State.reset : State :=
  State.construct Config.resetRamFill (.romOnly ⟨[], Config.resetCartridgeByte⟩)

end Sys2Proof.Machine
end

