-- ==== Sys2Proof/Machine/Flags.lean ====
section
/-! DEFINITION. The flag register's bits and the widths two of them select (10_state.md R18 to R22, R91). -/

namespace Sys2Proof.Machine

/-- The eight flags in the order of R18: carry, zero, no-IRQ, decimal, index-width, accumulator-width, overflow, negative. -/
inductive Flag where
  | c
  | z
  | i
  | d
  | x
  | m
  | v
  | n
  deriving DecidableEq, Repr

/-- The bit of each flag (R19, the spec's decision D1). -/
def Flag.bit : Flag → Nat
  | .c => 0
  | .z => 1
  | .i => 2
  | .d => 3
  | .x => 4
  | .m => 5
  | .v => 6
  | .n => 7

/-- The mask of each flag (R19). -/
def Flag.mask (f : Flag) : Byte := 1 <<< f.bit

/-- Read one flag. -/
def State.flag (s : State) (f : Flag) : Bool := s.flags.getLsbD f.bit

/-- Set one flag, leaving every other bit (R125). -/
def State.setFlag (s : State) (f : Flag) : State := { s with flags := s.flags ||| f.mask }

/-- The width a flag selects: clear is 8-bit, set is 16-bit (R20). -/
def widthOf (flag : Bool) : Width := if flag then .w16 else .w8

/-- `width_A()` (R91). -/
def State.widthA (s : State) : Width := widthOf (s.flag .m)

/-- `width_XY()` (R91). -/
def State.widthXY (s : State) : Width := widthOf (s.flag .x)

end Sys2Proof.Machine
end

