-- ==== Sys2Proof/WellFormed.lean ====
section
/-! DEFINITION. Which instructions exist at an accumulator width. -/

namespace Sys2Proof

/-- An instruction a byte string can stand for when `width_A()` is `w`: an immediate has the width `flags.M` selects
(30_encoding.md R72, R75, R79). Every value of every other operand is accepted (R77). -/
def Instr.wellFormed (w : Width) : Instr → Bool
  | .sei => true
  | .braDisp _ => true
  | .stzAddr _ => true
  | .ldaImm imm => decide (imm.width = w)
  | .ldaAddr _ => true

end Sys2Proof
end

