-- ==== Sys2Proof/Decode.lean ====
section
/-! DEFINITION. The opcode map, the decoder on bytes, and the encoder (30_encoding.md). -/

namespace Sys2Proof

/-- An operation and addressing-mode pairing of the opcode map (R70, R76). -/
inductive Opcode where
  | sei
  | bra
  | stzAbs
  | ldaImm
  | ldaAbs
  deriving DecidableEq, Repr

/-- The byte of each row of R76. -/
def Opcode.byte : Opcode → Byte
  | .sei => Config.opcSei
  | .bra => Config.opcBra
  | .stzAbs => Config.opcStzAbs
  | .ldaImm => Config.opcLdaImm
  | .ldaAbs => Config.opcLdaAbs

/-- The table lookup on the whole opcode byte, never on `flags` (R76, R136); `none` is an illegal byte (R77). -/
def Opcode.ofByte (b : Byte) : Option Opcode :=
  if b = Config.opcSei then some .sei
  else if b = Config.opcBra then some .bra
  else if b = Config.opcStzAbs then some .stzAbs
  else if b = Config.opcLdaImm then some .ldaImm
  else if b = Config.opcLdaAbs then some .ldaAbs
  else none

/-- Why a byte string is no instruction. -/
inductive DecodeError where
  /-- The opcode byte has no row in R76 (R77). -/
  | illegalOpcode (op : Byte)
  /-- The string ends before the instruction does; three bytes always suffice (R75). -/
  | truncated
  deriving DecidableEq, Repr

/-- Assemble the operand of an opcode from the bytes that follow it, at accumulator width `w`; the rest is returned (R78). -/
def Opcode.operand (w : Width) : Opcode → List Byte → Except DecodeError (Instr × List Byte)
  | .sei, rest => .ok (.sei, rest)
  | .bra, b1 :: rest => .ok (.braDisp b1, rest)
  | .stzAbs, b1 :: b2 :: rest => .ok (.stzAddr (cat16 b2 b1), rest)
  | .ldaImm, b1 :: rest =>
    match w, rest with
    | .w8, _ => .ok (.ldaImm (.b8 b1), rest)
    | .w16, b2 :: rest' => .ok (.ldaImm (.b16 (cat16 b2 b1)), rest')
    | .w16, [] => .error .truncated
  | .ldaAbs, b1 :: b2 :: rest => .ok (.ldaAddr (cat16 b2 b1), rest)
  | .bra, [] => .error .truncated
  | .stzAbs, _ => .error .truncated
  | .ldaImm, [] => .error .truncated
  | .ldaAbs, _ => .error .truncated

/-- Decode the instruction at the head of a byte string when `width_A()` is `w` (R70 to R78). -/
def decode (w : Width) : List Byte → Except DecodeError (Instr × List Byte)
  | [] => .error .truncated
  | op :: rest =>
    match Opcode.ofByte op with
    | none => .error (.illegalOpcode op)
    | some o => o.operand w rest

/-- The opcode an instruction is written with (R76). -/
def Instr.opcode : Instr → Opcode
  | .sei => .sei
  | .braDisp _ => .bra
  | .stzAddr _ => .stzAbs
  | .ldaImm _ => .ldaImm
  | .ldaAddr _ => .ldaAbs

/-- The bytes of a value in the instruction stream, low byte first (R72, R46). -/
def Value.bytes : Value → List Byte
  | .b8 v => [v]
  | .b16 v => [lo8 v, hi8 v]

/-- The operand bytes of an instruction, low byte first (R70 to R74). -/
def Instr.operandBytes : Instr → List Byte
  | .sei => []
  | .braDisp disp => [disp]
  | .stzAddr addr => [lo8 addr, hi8 addr]
  | .ldaImm imm => imm.bytes
  | .ldaAddr addr => [lo8 addr, hi8 addr]

/-- The encoder: opcode byte, then operand bytes (R70). -/
def encode (i : Instr) : List Byte := i.opcode.byte :: i.operandBytes

/-- The length in bytes (R75). -/
def Instr.length (i : Instr) : Nat := (encode i).length

/-- The three bytes the host's table number `w` of `nbits` bits lays out: byte 0 is bits 7..0, the next bits 15..8, and so
on; every bit from `nbits` up is 0. Three bytes are the longest instruction (R75). -/
def tableBytes (nbits w : Nat) : List Byte :=
  let v := w % 2 ^ nbits
  [BitVec.ofNat 8 v, BitVec.ofNat 8 (v / 0x100), BitVec.ofNat 8 (v / 0x10000)]

/-- The instruction the decoder reads from a table word. DESIGN CHOICE (log entry 6): at the accumulator width after reset,
8 bits (R28), since a table word carries no `flags.M` (R75). -/
def decodeTableWord (nbits w : Nat) : Option Instr :=
  match decode .w8 (tableBytes nbits w) with
  | .ok (i, _) => some i
  | .error _ => none

end Sys2Proof
end

