-- ==== Sys2Proof/Machine/Ops.lean ====
section
/-! DEFINITION. The named operations: the bus over State, byte and 16-bit access, fetch and advance, and the halt. -/

namespace Sys2Proof.Machine

/-- `raise F(info)`: the one fault entry. `halt` is written and nothing else changes: nothing is pushed, no vector is read,
`pc` and `flags` stay (60_exceptions.md R153). The spec gives no return from it (R154). -/
def State.raise (s : State) (f : Fault) : State := { s with halt := .halted f }

/-- `BusRead(bank, off)` (20_memory.md R42). -/
def State.busRead (s : State) (bank : Byte) (off : Word) : Byte := readBus s.ram s.mapper bank off

/-- How a write to the bus ended. -/
inductive Access where
  /-- Every byte landed. -/
  | done (s : State)
  /-- A byte was refused: the fault, and the state with the bytes that landed before it (R152). -/
  | raised (f : Fault) (s : State)
  deriving DecidableEq, Repr

/-- The state after a write: the fault it raised, if any, is taken (R153). -/
def Access.settle : Access → State
  | .done s => s
  | .raised f s => s.raise f

/-- `BusWrite(bank, off, b)` (R43). -/
def State.busWrite (s : State) (bank : Byte) (off : Word) (b : Byte) : Access :=
  match busDecode bank off with
  | .ram i => .done { s with ram := s.ram.write i b }
  | .mapper k o =>
    match s.mapper.write k o b with
    | some m => .done { s with mapper := m }
    | none => .raised (.unsupportedMapperWrite k o b) s

/-- `MemRead((bank, off), 2)` (R47). -/
def State.memRead16 (s : State) (bank : Byte) (off : Word) : Word := readBus16 s.ram s.mapper bank off

/-- `MemWrite((bank, off), 2, v)`: low byte first; if it raises, the second byte is not written (R47; order D17). -/
def State.memWrite16 (s : State) (bank : Byte) (off : Word) (v : Word) : Access :=
  match s.busWrite bank off (lo8 v) with
  | .done s' => s'.busWrite bank (off + 1) (hi8 v)
  | .raised f s' => .raised f s'

/-- Move the program counter on by `n` bytes inside its bank (10_state.md R16). -/
def State.advance (s : State) (n : Nat) : State := { s with pc := s.pc + BitVec.ofNat 16 n }

/-- `Fetch8()`: the byte at `(pb, pc)`, and `pc` one further modulo 0x10000 (41_addressing_modes.md R100). -/
def State.fetch8 (s : State) : Byte × State := (s.busRead s.pb s.pc, s.advance 1)

/-- `Fetch16()`: two fetches, low byte first (R101). -/
def State.fetch16 (s : State) : Word × State :=
  let low := s.fetch8
  let high := low.2.fetch8
  (cat16 high.1 low.1, high.2)

/-- The next `n` instruction-stream bytes, at increasing offsets modulo 0x10000 in bank `pb` (30_encoding.md R70). -/
def State.codeBytes (s : State) : Nat → List Byte
  | 0 => []
  | n + 1 => s.busRead s.pb s.pc :: (s.advance 1).codeBytes n

end Sys2Proof.Machine
end

