-- ==== Sys2Proof/Machine/Operands.lean ====
section
/-! DEFINITION. The width dispatch layer and the four addressing modes (40_width_dispatch.md, 41_addressing_modes.md). -/

namespace Sys2Proof.Machine

/-- The registers `get` and `set` reach (R94). -/
inductive Reg where
  | a
  | x
  | y
  deriving DecidableEq, Repr

/-- A register's 16-bit storage (R95). -/
def State.reg (s : State) : Reg → Word
  | .a => s.a
  | .x => s.x
  | .y => s.y

/-- Write a register's 16-bit storage. -/
def State.putReg (s : State) (r : Reg) (v : Word) : State :=
  match r with
  | .a => { s with a := v }
  | .x => { s with x := v }
  | .y => { s with y := v }

/-- `get_W(r)` (R94). -/
def State.getReg (s : State) (w : Width) (r : Reg) : Value :=
  match w with
  | .w8 => .b8 (lo8 (s.reg r))
  | .w16 => .b16 (s.reg r)

/-- What a register holds after a value is set over `old`: an 8-bit value keeps the high byte (R95, R21). -/
def mergeInto (old : Word) (v : Value) : Word :=
  match v with
  | .b8 b => cat16 (hi8 old) b
  | .b16 n => n

/-- `set_W(r, v)`, the width being the value's own (R95). -/
def State.setReg (s : State) (r : Reg) (v : Value) : State := s.putReg r (mergeInto (s.reg r) v)

/-- `zero_W` (R96). -/
def zeroValue : Width → Value
  | .w8 => .b8 0
  | .w16 => .b16 0

/-- `read_W(bank, off)` (R92). -/
def State.readValue (s : State) (w : Width) (bank : Byte) (off : Word) : Value :=
  match w with
  | .w8 => .b8 (s.busRead bank off)
  | .w16 => .b16 (s.memRead16 bank off)

/-- `write_W(bank, off, v)`, the width being the value's own (R93). -/
def State.writeValue (s : State) (bank : Byte) (off : Word) (v : Value) : Access :=
  match v with
  | .b8 b => s.busWrite bank off b
  | .b16 n => s.memWrite16 bank off n

/-- `Immediate(W)` (R102). -/
def State.immediate (s : State) (w : Width) : Value × State :=
  match w with
  | .w8 => (.b8 s.fetch8.1, s.fetch8.2)
  | .w16 => (.b16 s.fetch16.1, s.fetch16.2)

/-- `AbsoluteAddress()` (R104). -/
def State.absoluteAddress (s : State) : Word × State := s.fetch16

/-- The data half of Absolute (value): the value at `(db, addr)` (R103). -/
def State.absoluteLoad (s : State) (w : Width) (addr : Word) : Value := s.readValue w s.db addr

/-- `AbsoluteValue(W)` (R103). -/
def State.absoluteValue (s : State) (w : Width) : Value × State :=
  let addr := s.absoluteAddress
  (addr.2.absoluteLoad w addr.1, addr.2)

/-- The jump half of PC-relative: add the signed displacement if the predicate holds (R105). -/
def State.branchIf (s : State) (p : Bool) (disp : Byte) : State :=
  if p then { s with pc := s.pc + sext16 disp } else s

/-- `PCRelative(p)` (R105). -/
def State.pcRelative (s : State) (p : Bool) : State := s.fetch8.2.branchIf p s.fetch8.1

end Sys2Proof.Machine
end

