-- ==== Sys2Proof/Machine/Branch.lean ====
section
/-! DEFINITION. The control transfer (44_branch.md). A meaning runs with `pc` already past its instruction (log entry 7). -/

namespace Sys2Proof.Machine

/-- `BRA disp`: PC-relative with the always-true predicate (R130). -/
def execBraDisp (disp : Byte) (s : State) : Host.Outcome State Fault Refusal := .next (s.branchIf true disp)

end Sys2Proof.Machine
end

