-- ==== Sys2Proof/Machine/FlagOps.lean ====
section
/-! DEFINITION. The flag instruction (43_flag_ops.md). A meaning runs with `pc` already past its instruction (log entry 7). -/

namespace Sys2Proof.Machine

/-- `SEI`: `flags.I <- 1` (R125). -/
def execSei (s : State) : Host.Outcome State Fault Refusal := .next (s.setFlag .i)

end Sys2Proof.Machine
end

