-- ==== Sys2Proof/Machine/LoadStore.lean ====
section
/-! DEFINITION. Loads and stores (42_load_store.md). A meaning runs with `pc` already past its instruction (log entry 7). -/

namespace Sys2Proof.Machine

/-- `LDA #imm`: `set_W(a, v)`; no flag is written (R115). The immediate's own width is the `width_A()` it was fetched at. -/
def execLdaImm (imm : Value) (s : State) : Host.Outcome State Fault Refusal := .next (s.setReg .a imm)

/-- `LDA addr`: `set_W(a, read_W(db, addr))`; no flag is written (R116). -/
def execLdaAddr (addr : Word) (s : State) : Host.Outcome State Fault Refusal :=
  .next (s.setReg .a (s.absoluteLoad s.widthA addr))

/-- `STZ addr`: `write_W(db, addr, zero_W)`; a byte the Mapper does not support halts the core there (R117, R152). -/
def execStzAddr (addr : Word) (s : State) : Host.Outcome State Fault Refusal :=
  .next (s.writeValue s.db addr (zeroValue s.widthA)).settle

end Sys2Proof.Machine
end

