-- ==== Sys2Proof/Machine/Dispatch.lean ====
section
/-! DEFINITION. The dispatch: one arm per instruction, each a direct call of its meaning (30_encoding.md R76). -/

namespace Sys2Proof.Machine

/-- The meaning of an instruction, at a state whose `pc` is already past the instruction's bytes. -/
def exec (i : Instr) (s : State) : Host.Outcome State Fault Refusal :=
  match i with
  | .sei => Sys2Proof.Machine.execSei s
  | .braDisp disp => Sys2Proof.Machine.execBraDisp disp s
  | .stzAddr addr => Sys2Proof.Machine.execStzAddr addr s
  | .ldaImm imm => Sys2Proof.Machine.execLdaImm imm s
  | .ldaAddr addr => Sys2Proof.Machine.execLdaAddr addr s

end Sys2Proof.Machine
end

