-- ==== Sys2Proof/Machine/Fetch.lean ====
section
/-! DEFINITION. Fetching an instruction, the unimplemented opcode, and placing bytes where the fetch reads them. -/

namespace Sys2Proof.Machine

/-- The instruction at `(pb, pc)` decoded at `width_A()`, and the state with `pc` past its bytes; `none` for an opcode byte
with no row in the table. Reads change no state (R42), so looking at three bytes, the longest instruction (R75), is the
same as fetching each when it is needed (45_step_loop.md R135; log entry 7). -/
def State.fetchInstr (s : State) : Option (Instr × State) :=
  match decode s.widthA (s.codeBytes 3) with
  | .ok (i, _) => some (i, s.advance i.length)
  | .error _ => none

/-- The step on an opcode byte with no row: the fault is raised on the state before the step, `pc` included (R137, R151;
the spec's decision D10). -/
def State.unimplementedOpcode (s : State) : State :=
  s.raise (.unimplementedInstruction s.pb s.pc (s.busRead s.pb s.pc))

/-- A harness preset of one byte (70_reset_and_hazards.md R178), or of one byte of the cartridge's image handed over at
construction (R170): what the bus then reads at `(bank, off)`. A `custom` Mapper's bytes cannot be placed. -/
def State.poke (s : State) (bank : Byte) (off : Word) (b : Byte) : State :=
  match busDecode bank off with
  | .ram i => { s with ram := s.ram.write i b }
  | .mapper k o =>
    match s.mapper with
    | .romOnly image => { s with mapper := .romOnly (image.write (fullAddress k o) b) }
    | .saveRam image windows => { s with mapper := .saveRam (image.write (fullAddress k o) b) windows }
    | .custom _ => s

/-- Preset consecutive bytes from `(bank, off)` on, offsets modulo 0x10000. -/
def State.pokeBytes (s : State) (bank : Byte) (off : Word) : List Byte → State
  | [] => s
  | b :: rest => (s.poke bank off b).pokeBytes bank (off + 1) rest

/-- The preset that makes the next step fetch at a place whose bytes a harness can set: the core running, and the program
bank low RAM where the cartridge is a `custom` one. -/
def State.readyToFetch (s : State) : State :=
  match s.mapper with
  | .custom _ => { s with halt := .running, pb := Config.ramBankLow }
  | _ => { s with halt := .running }

end Sys2Proof.Machine
end

