-- ==== Sys2Proof/Machine/Step.lean ====
section
/-! DEFINITION. The step of the machine (45_step_loop.md R135). -/

namespace Sys2Proof.Machine

/-- `Step`: nothing after a halt (R140); else the instruction at `(pb, pc)`, run with `pc` past it (R135); else the
unimplemented opcode (R137). -/
def step (s : State) : Host.Outcome State Fault Refusal :=
  match s.halt with
  | .halted _ => .next s
  | .running =>
    match s.fetchInstr with
    | some (i, s') => exec i s'
    | none => .next s.unimplementedOpcode

/-- `s` with the table word's three bytes stored where `step` fetches its next instruction (log entry 5). -/
def State.withFetchWord (s : State) (nbits w : Nat) : State :=
  s.readyToFetch.pokeBytes s.readyToFetch.pb s.readyToFetch.pc (tableBytes nbits w)

end Sys2Proof.Machine
end

