-- ==== Sys2Proof/Machine/HostInterface.lean ====
section
/-! DEFINITION. The host's entry points over a session (70_reset_and_hazards.md R175). Construction is `State.construct`. -/

namespace Sys2Proof.Machine

/-- `n` bytes from `(bank, off)` on, offsets modulo 0x10000. -/
def State.busReads (s : State) (bank : Byte) (off : Word) : Nat → List Byte
  | 0 => []
  | n + 1 => s.busRead bank off :: s.busReads bank (off + 1) n

/-- `game_title()`: the 21 bytes of the title field; no state changes (R176). -/
def State.gameTitle (s : State) : List Byte := s.busReads Config.titleBank Config.titleOffset Config.titleLen

/-- `n` steps, stopping where a step answers no next state (it never does). -/
def State.run (s : State) : Nat → Host.Outcome State Fault Refusal
  | 0 => .next s
  | n + 1 =>
    match step s with
    | .next t => t.run n
    | .fault r => .fault r
    | .refused r => .refused r

/-- `run_frame(buffer)`: `STEPS_PER_FRAME` steps; the pixel buffer is neither read nor written (45_step_loop.md R138, R139). -/
def State.runFrame (s : State) : Host.Outcome State Fault Refusal := s.run Config.stepsPerFrame

end Sys2Proof.Machine
end

