-- ==== Sys2Proof/Machine/Pseudocode.lean ====
section
/-! DEFINITION. The spec's own `Step`, transcribed with its resolvers; the statements hold `step` against it. -/

namespace Sys2Proof.Machine

/-- The pseudocode of `LDA #imm`, entered with `pc` at the first operand byte (42_load_store.md R115). -/
def State.pseudoLdaImm (s : State) : State :=
  let v := s.immediate s.widthA
  v.2.setReg .a v.1

/-- The pseudocode of `LDA addr` (R116). -/
def State.pseudoLdaAddr (s : State) : State :=
  let v := s.absoluteValue s.widthA
  v.2.setReg .a v.1

/-- The pseudocode of `STZ addr` (R117). -/
def State.pseudoStzAddr (s : State) : State :=
  let addr := s.absoluteAddress
  (addr.2.writeValue addr.2.db addr.1 (zeroValue s.widthA)).settle

/-- `Step()` of 45_step_loop.md R135, line by line: the opcode fetched by `Fetch8()`, the operands by the resolvers, and `pc`
put back before UnimplementedInstruction is raised. -/
def State.pseudoStep (s : State) : State :=
  match s.halt with
  | .halted _ => s
  | .running =>
    let op := s.fetch8
    if op.1 = Config.opcSei then op.2.setFlag .i
    else if op.1 = Config.opcBra then op.2.pcRelative true
    else if op.1 = Config.opcStzAbs then op.2.pseudoStzAddr
    else if op.1 = Config.opcLdaImm then op.2.pseudoLdaImm
    else if op.1 = Config.opcLdaAbs then op.2.pseudoLdaAddr
    else { op.2 with pc := s.pc }.raise (.unimplementedInstruction s.pb s.pc op.1)

end Sys2Proof.Machine
end

