-- ==== Sys2Proof/Safety.lean ====
section
/-! DEFINITION. What counts as a good state and a safe run, in the terms the statements use. -/

namespace Sys2Proof.Machine

/-- A fault state: the core has halted. "never final, never cleared by a later step" (60_exceptions.md R153). -/
def State.faulted (s : State) : Prop := s.halt ≠ .running

/-- The invariant of the machine's plain data: RAM in its canonical form over `RAM_SIZE` bytes (10_state.md R23), `RAM_FILL`
not zero (R28), and the cartridge's images canonical. -/
abbrev State.Inv (s : State) : Prop :=
  s.ram.wf Config.ramSize ∧ s.ram.fill ≠ 0 ∧ s.mapper.wf

/-- A run of `n` steps that halts nowhere. -/
def State.SafeFor (s : State) (n : Nat) : Prop :=
  ∃ t, s.run n = .next t ∧ ¬ t.faulted

/-- The self-branch `80 FE` at `pc`, by convention the good end of a run (45_step_loop.md R141, case c). -/
def State.atSelfBranch (s : State) : Prop := s.codeBytes 2 = [0x80, 0xFE]

end Sys2Proof.Machine
end

