-- ==== Sys2Proof/Certificates/Slice0/Obligations.lean ====
section
/-! DEFINITION. The statements for the provers, from the numbered rules of spec/. Each docstring names the rule it formalises;
a clause that rests on a decision of the spec's own (92_eei_decisions.md) or on a log entry says so. -/

open Sys2Proof Sys2Proof.Machine

/-! ### Encoding (30_encoding.md) -/

/-- R70 to R78: at the width an instruction exists at, decoding its encoding gives it back with every operand, whatever bytes
follow. All five instructions, every operand value. (STZ's byte: D8.) -/
def Obligations.DecodeOfEncodeIsTheInstruction : Prop :=
  ∀ (w : Width) (i : Instr) (rest : List Byte),
    i.wellFormed w = true → decode w (encode i ++ rest) = .ok (i, rest)

/-- R70, R75: what decodes is well-formed at the width, and its bytes are exactly its encoding. (STZ's byte: D8.) -/
def Obligations.DecodedBytesAreTheEncoding : Prop :=
  ∀ (w : Width) (bytes : List Byte) (i : Instr) (rest : List Byte),
    decode w bytes = .ok (i, rest) → i.wellFormed w = true ∧ bytes = encode i ++ rest

/-- R77: the illegal opcode bytes are the bytes with no row in R76, at either width. (0x9C: D8.) -/
def Obligations.IllegalOpcodesAreExactlyTheOtherBytes : Prop :=
  ∀ (w : Width) (op : Byte) (rest : List Byte),
    decode w (op :: rest) = .error (.illegalOpcode op) ↔
      op ≠ 0x78 ∧ op ≠ 0x80 ∧ op ≠ 0x9C ∧ op ≠ 0xA9 ∧ op ≠ 0xAD

/-- R75: the length of each instruction; that of `LDA #imm` follows the width of its immediate, which is the width it exists
at. -/
def Obligations.LengthsAreThoseOfTheFormats : Prop :=
  Instr.length .sei = 1 ∧
  (∀ d, (Instr.braDisp d).length = 2) ∧
  (∀ v, (Instr.ldaImm (.b8 v)).length = 2 ∧
    ∀ w, (Instr.ldaImm (.b8 v)).wellFormed w = true ↔ w = .w8) ∧
  (∀ v, (Instr.ldaImm (.b16 v)).length = 3 ∧
    ∀ w, (Instr.ldaImm (.b16 v)).wellFormed w = true ↔ w = .w16) ∧
  (∀ addr, (Instr.ldaAddr addr).length = 3) ∧
  (∀ addr, (Instr.stzAddr addr).length = 3)

/-- R71 to R74, R79: words written out from the spec's encodings decode to the instructions they stand for. (0x9C: D8.) -/
def Obligations.WordsOfTheSpecDecode : Prop :=
  decode .w8 [0x78] = .ok (.sei, []) ∧
  decode .w8 [0x80, 0xFE] = .ok (.braDisp 0xFE, []) ∧
  decode .w8 [0x9C, 0x10, 0x02] = .ok (.stzAddr 0x0210, []) ∧
  decode .w8 [0xA9, 0x20] = .ok (.ldaImm (.b8 0x20), []) ∧
  decode .w16 [0xA9, 0x20, 0x80] = .ok (.ldaImm (.b16 0x8020), []) ∧
  decode .w16 [0xAD, 0x01, 0x00] = .ok (.ldaAddr 0x0001, [])

/-! ### The step (45_step_loop.md) -/

/-- R135: when the bytes at `(pb, pc)` decode at `width_A()`, the instruction is well-formed there and `step` is `exec` of it
on the same state with `pc` moved past its bytes. That a meaning runs with `pc` already past the instruction is log entry 7. -/
def Obligations.StepRunsTheDecodedInstruction : Prop :=
  ∀ (s : State) (i : Instr) (rest : List Byte),
    s.halt = .running → decode s.widthA (s.codeBytes 3) = .ok (i, rest) →
    i.wellFormed s.widthA = true ∧ step s = exec i { s with pc := s.pc + BitVec.ofNat 16 i.length }

/-- R70, R135: when the bytes at `(pb, pc)` are the encoding of a well-formed instruction, `step` runs it (log entry 7). -/
def Obligations.StepRunsTheInstructionItsBytesEncode : Prop :=
  ∀ (s : State) (i : Instr),
    s.halt = .running → i.wellFormed s.widthA = true → s.codeBytes i.length = encode i →
    step s = exec i { s with pc := s.pc + BitVec.ofNat 16 i.length }

/-- R135, with the resolvers R100 to R105 and the instruction rules R115, R116, R117, R125, R130: on every state, `step`
answers the state the spec's own pseudocode reaches. (It transcribes D10, D22 and the byte 0x9C of D8.) -/
def Obligations.StepIsTheSpecsPseudocode : Prop :=
  ∀ s : State, step s = .next s.pseudoStep

/-- R137, R151: an opcode byte with no row halts the core, and nothing but `halt` changes, `pc` included (D10; 0x9C: D8). -/
def Obligations.UnimplementedOpcodeChangesOnlyHalt : Prop :=
  ∀ s : State, s.halt = .running →
    s.busRead s.pb s.pc ≠ 0x78 → s.busRead s.pb s.pc ≠ 0x80 → s.busRead s.pb s.pc ≠ 0x9C →
    s.busRead s.pb s.pc ≠ 0xA9 → s.busRead s.pb s.pc ≠ 0xAD →
    step s = .next { s with halt := .halted (.unimplementedInstruction s.pb s.pc (s.busRead s.pb s.pc)) }

/-- R140, R154: a halted core does nothing, for any number of steps (the spec's decision D22). -/
def Obligations.HaltedCoreDoesNothing : Prop :=
  ∀ (s : State) (f : Fault) (n : Nat), s.halt = .halted f → s.run n = .next s

/-! ### The instructions from their bytes (R115, R116, R117, R125, R130) -/

/-- R125: the byte 0x78 sets exactly the no-IRQ flag and moves `pc` by one; nothing else changes. -/
def Obligations.StepOfSeiSetsExactlyTheNoIrqFlag : Prop :=
  ∀ s : State, s.halt = .running → s.codeBytes 1 = [0x78] →
    ∃ t, step s = .next t ∧ t = { s with flags := t.flags, pc := s.pc + 1 } ∧
      t.flag .i = true ∧ ∀ f, f ≠ .i → t.flag f = s.flag f

/-- R130: `80 dd` moves `pc` to the opcode's offset plus 2 plus the signed displacement, modulo 0x10000; nothing else
changes. -/
def Obligations.StepOfBraAddsTheDisplacement : Prop :=
  ∀ (s : State) (dd : Byte), s.halt = .running → s.codeBytes 2 = [0x80, dd] →
    step s = .next { s with pc := s.pc + 2 + dd.signExtend 16 }

/-- R115: `A9 nn` at 8 bits replaces the low byte of `a`; `A9 ll hh` at 16 bits replaces `a`; no flag is written, `pc` moves
past the operand, nothing else changes. -/
def Obligations.StepOfLdaImmediateLoadsAccumulator : Prop :=
  (∀ (s : State) (nn : Byte), s.halt = .running → s.flag .m = false → s.codeBytes 2 = [0xA9, nn] →
    step s = .next { s with a := s.a.extractLsb' 8 8 ++ nn, pc := s.pc + 2 }) ∧
  (∀ (s : State) (ll hh : Byte), s.halt = .running → s.flag .m = true → s.codeBytes 3 = [0xA9, ll, hh] →
    step s = .next { s with a := hh ++ ll, pc := s.pc + 3 })

/-- R116: `AD ll hh` loads the low byte of `a` at 8 bits, all of `a` at 16 bits, from bank `db`; the second byte is at the next
offset modulo 0x10000 in the same bank; no flag is written. (Which data byte is the high one: D2.) -/
def Obligations.StepOfLdaAbsoluteLoadsFromDataBank : Prop :=
  ∀ (s : State) (ll hh : Byte), s.halt = .running → s.codeBytes 3 = [0xAD, ll, hh] →
    (s.flag .m = false →
      step s = .next { s with a := s.a.extractLsb' 8 8 ++ s.busRead s.db (hh ++ ll), pc := s.pc + 3 }) ∧
    (s.flag .m = true →
      step s = .next { s with
        a := s.busRead s.db ((hh ++ ll : Word) + 1) ++ s.busRead s.db (hh ++ ll), pc := s.pc + 3 })

/-- R117: `9C ll hh` writes one zero byte at 8 bits, two at 16 bits, to bank `db`, with `pc` already past the instruction; a
byte that is refused halts the core there, and the second byte is then not written. (Byte 0x9C: D8; order: D17; partial
effects: D11.) -/
def Obligations.StepOfStzWritesZeroes : Prop :=
  ∀ (s : State) (ll hh : Byte), s.halt = .running → s.codeBytes 3 = [0x9C, ll, hh] →
    (s.flag .m = false →
      step s = match { s with pc := s.pc + 3 }.busWrite s.db (hh ++ ll) 0 with
        | .done t => .next t
        | .raised f t => .next { t with halt := .halted f }) ∧
    (s.flag .m = true →
      step s = match { s with pc := s.pc + 3 }.busWrite s.db (hh ++ ll) 0 with
        | .raised f t => .next { t with halt := .halted f }
        | .done t =>
          match t.busWrite s.db ((hh ++ ll : Word) + 1) 0 with
          | .done u => .next u
          | .raised f u => .next { u with halt := .halted f })

/-! ### The meanings: completion, traps and frames -/

/-- R125: SEI completes on every state; its mask is bit 2 (D1). -/
def Obligations.SeiCompletesSettingBitTwo : Prop :=
  ∀ s : State, exec .sei s = .next { s with flags := s.flags ||| 0x04 }

/-- R130: BRA completes on every state and every displacement. `pc` on entry is past the instruction (log entry 7). -/
def Obligations.BraCompletesAddingTheDisplacement : Prop :=
  ∀ (s : State) (d : Byte), exec (.braDisp d) s = .next { s with pc := s.pc + d.signExtend 16 }

/-- R115: LDA immediate completes on every state, the immediate being of the width `flags.M` selects (log entry 7). -/
def Obligations.LdaImmediateCompletesAtBothWidths : Prop :=
  (∀ (s : State) (v : Byte), s.flag .m = false →
    exec (.ldaImm (.b8 v)) s = .next { s with a := s.a.extractLsb' 8 8 ++ v }) ∧
  (∀ (s : State) (v : Word), s.flag .m = true → exec (.ldaImm (.b16 v)) s = .next { s with a := v })

/-- R116: LDA absolute completes on every state and every address, at both widths (data byte order: D2). -/
def Obligations.LdaAbsoluteCompletesAtBothWidths : Prop :=
  ∀ (s : State) (addr : Word),
    (s.flag .m = false →
      exec (.ldaAddr addr) s = .next { s with a := s.a.extractLsb' 8 8 ++ s.busRead s.db addr }) ∧
    (s.flag .m = true →
      exec (.ldaAddr addr) s = .next { s with a := s.busRead s.db (addr + 1) ++ s.busRead s.db addr })

/-- R117: STZ completes where every byte of the store decodes to RAM, at both widths: those cells, and nothing else, hold
zero. (Order: D17.) -/
def Obligations.StzIntoRamCompletes : Prop :=
  (∀ (s : State) (addr : Word) (i : Nat), s.flag .m = false → busDecode s.db addr = .ram i →
    exec (.stzAddr addr) s = .next { s with ram := s.ram.write i 0 }) ∧
  (∀ (s : State) (addr : Word) (i j : Nat), s.flag .m = true →
    busDecode s.db addr = .ram i → busDecode s.db (addr + 1) = .ram j →
    exec (.stzAddr addr) s = .next { s with ram := (s.ram.write i 0).write j 0 })

/-- R117, R43, R44: STZ completes where the Mapper takes the bytes that decode to it, alone or beside a byte in RAM (D17). -/
def Obligations.StzIntoAnAcceptingMapperCompletes : Prop :=
  (∀ (s : State) (addr : Word) (m : Mapper), s.flag .m = false →
    busDecode s.db addr = .mapper s.db addr → s.mapper.write s.db addr 0 = some m →
    exec (.stzAddr addr) s = .next { s with mapper := m }) ∧
  (∀ (s : State) (addr : Word) (m m' : Mapper), s.flag .m = true →
    busDecode s.db addr = .mapper s.db addr → s.mapper.write s.db addr 0 = some m →
    busDecode s.db (addr + 1) = .mapper s.db (addr + 1) → m.write s.db (addr + 1) 0 = some m' →
    exec (.stzAddr addr) s = .next { s with mapper := m' }) ∧
  (∀ (s : State) (addr : Word) (i : Nat) (m : Mapper), s.flag .m = true →
    busDecode s.db addr = .ram i →
    busDecode s.db (addr + 1) = .mapper s.db (addr + 1) → s.mapper.write s.db (addr + 1) 0 = some m →
    exec (.stzAddr addr) s = .next { s with ram := s.ram.write i 0, mapper := m }) ∧
  (∀ (s : State) (addr : Word) (i : Nat) (m : Mapper), s.flag .m = true →
    busDecode s.db addr = .mapper s.db addr → s.mapper.write s.db addr 0 = some m →
    busDecode s.db (addr + 1) = .ram i →
    exec (.stzAddr addr) s = .next { s with ram := s.ram.write i 0, mapper := m })

/-- R117, R152, R153, R155: the byte the Mapper refuses halts the core with its bank, offset and value; a first byte refused
leaves storage as it was, a second byte refused leaves the first written (D9, D11, D17). -/
def Obligations.StzHaltsAtTheRefusedByte : Prop :=
  (∀ (s : State) (addr : Word),
    busDecode s.db addr = .mapper s.db addr → s.mapper.write s.db addr 0 = none →
    exec (.stzAddr addr) s = .next { s with halt := .halted (.unsupportedMapperWrite s.db addr 0) }) ∧
  (∀ (s : State) (addr : Word) (i : Nat), s.flag .m = true →
    busDecode s.db addr = .ram i →
    busDecode s.db (addr + 1) = .mapper s.db (addr + 1) → s.mapper.write s.db (addr + 1) 0 = none →
    exec (.stzAddr addr) s = .next { s with
      ram := s.ram.write i 0, halt := .halted (.unsupportedMapperWrite s.db (addr + 1) 0) }) ∧
  (∀ (s : State) (addr : Word) (m : Mapper), s.flag .m = true →
    busDecode s.db addr = .mapper s.db addr → s.mapper.write s.db addr 0 = some m →
    busDecode s.db (addr + 1) = .mapper s.db (addr + 1) → m.write s.db (addr + 1) 0 = none →
    exec (.stzAddr addr) s = .next { s with
      mapper := m, halt := .halted (.unsupportedMapperWrite s.db (addr + 1) 0) })

/-- R115, R116, R125, R130: the frame of the four instructions that store nothing. Only the destination changes, no flag but
SEI's, and every byte of memory reads as before. -/
def Obligations.InstructionsThatStoreNothingKeepTheRest : Prop :=
  ∀ s t : State,
    (exec .sei s = .next t →
      t = { s with flags := t.flags } ∧ (∀ f, f ≠ .i → t.flag f = s.flag f) ∧
      ∀ k o, t.busRead k o = s.busRead k o) ∧
    (∀ d, exec (.braDisp d) s = .next t →
      t = { s with pc := t.pc } ∧ ∀ k o, t.busRead k o = s.busRead k o) ∧
    (∀ v, exec (.ldaImm v) s = .next t →
      t = { s with a := t.a } ∧ ∀ k o, t.busRead k o = s.busRead k o) ∧
    (∀ addr, exec (.ldaAddr addr) s = .next t →
      t = { s with a := t.a } ∧ ∀ k o, t.busRead k o = s.busRead k o)

/-- R117: the frame of STZ, whether it completes or halts. Registers, flags and `pc` are unchanged, and so is `RAM_FILL`;
every byte whose target is not a target of the store, `(db, addr)` and at 16 bits `(db, addr + 1)`, reads as before. A
`custom` Mapper decides for itself what its reads give after a write it took (R44), so bytes behind one are held only when
the store is all in RAM. -/
def Obligations.StzKeepsEveryOtherByteAndRegister : Prop :=
  ∀ (s t : State) (addr : Word), exec (.stzAddr addr) s = .next t →
    t = { s with ram := t.ram, mapper := t.mapper, halt := t.halt } ∧
    t.ram.fill = s.ram.fill ∧
    ∀ k o, busDecode k o ≠ busDecode s.db addr →
      (s.flag .m = true → busDecode k o ≠ busDecode s.db (addr + 1)) →
      ((∃ i, busDecode k o = .ram i) ∨ (∀ data, s.mapper ≠ .custom data) ∨
        ((∃ i, busDecode s.db addr = .ram i) ∧ (s.flag .m = true → ∃ j, busDecode s.db (addr + 1) = .ram j))) →
      t.busRead k o = s.busRead k o

/-! ### Whole-machine rules -/

/-- R23, R24, R28 (D3, D4): every step keeps RAM canonical over `RAM_SIZE` bytes, `RAM_FILL` not zero, and the cartridge's
images canonical; and `RAM_FILL` is the same through the session. -/
def Obligations.StepKeepsTheInvariant : Prop :=
  ∀ s t : State, s.Inv → step s = .next t → t.Inv ∧ t.ram.fill = s.ram.fill

/-- The invariant holds after reset: of `State.reset`, and of every construction from a canonical cartridge and a
`RAM_FILL` the spec allows (R28, D4). -/
def Obligations.ConstructionMeetsTheInvariant : Prop :=
  State.reset.Inv ∧ ∀ (fill : Byte) (m : Mapper), fill ≠ 0 → m.wf → (State.construct fill m).Inv

/-- R27, R11 to R15, R17, R19: no step writes `x`, `y`, `dp`, `sp`, `db`, `pb` or a flag but I; I is never cleared; `a` is
written by the LDA bytes only, `flags` by SEI's, RAM and the Mapper by STZ's (0x9C: D8). -/
def Obligations.EachPieceOfStateIsWrittenOnlyAsListed : Prop :=
  ∀ s t : State, step s = .next t →
    t.x = s.x ∧ t.y = s.y ∧ t.dp = s.dp ∧ t.sp = s.sp ∧ t.db = s.db ∧ t.pb = s.pb ∧
    (∀ f, f ≠ .i → t.flag f = s.flag f) ∧ (s.flag .i = true → t.flag .i = true) ∧
    (t.a ≠ s.a → s.busRead s.pb s.pc = 0xA9 ∨ s.busRead s.pb s.pc = 0xAD) ∧
    (t.flags ≠ s.flags → s.busRead s.pb s.pc = 0x78) ∧
    (t.ram ≠ s.ram ∨ t.mapper ≠ s.mapper → s.busRead s.pb s.pc = 0x9C)

/-- R150, R151, R152, R155: a step that halts the core does so for one of two reasons: an opcode byte with no row, with
nothing but `halt` changed; or STZ at a byte of its store that decodes to the Mapper, with `pc` past the three bytes and
only storage changed besides (0x9C: D8; D10, D11). -/
def Obligations.AStepHaltsForOneOfTwoReasons : Prop :=
  ∀ (s t : State) (f : Fault), s.halt = .running → step s = .next t → t.halt = .halted f →
    (s.busRead s.pb s.pc ∉ [0x78, 0x80, 0x9C, 0xA9, 0xAD] ∧
      f = .unimplementedInstruction s.pb s.pc (s.busRead s.pb s.pc) ∧
      t = { s with halt := t.halt }) ∨
    (s.busRead s.pb s.pc = 0x9C ∧
      t = { s with pc := s.pc + 3, ram := t.ram, mapper := t.mapper, halt := t.halt } ∧
      ∃ addr o : Word, addr = s.busRead s.pb (s.pc + 2) ++ s.busRead s.pb (s.pc + 1) ∧
        (o = addr ∨ (s.flag .m = true ∧ o = addr + 1)) ∧
        busDecode s.db o = .mapper s.db o ∧ f = .unsupportedMapperWrite s.db o 0)

/-- R21: while `flags.M` is clear no step changes the high byte of `a`, while `flags.X` is clear none changes the high byte of
`x` or `y`; a `set` at the width the flag selects keeps the high byte of its register, and a `get` yields its low byte. -/
def Obligations.EightBitClassKeepsItsHighByte : Prop :=
  (∀ s t : State, step s = .next t →
    (s.flag .m = false → t.a.extractLsb' 8 8 = s.a.extractLsb' 8 8) ∧
    (s.flag .x = false →
      t.x.extractLsb' 8 8 = s.x.extractLsb' 8 8 ∧ t.y.extractLsb' 8 8 = s.y.extractLsb' 8 8)) ∧
  (∀ (s : State) (v : Value), s.flag .m = false → v.width = s.widthA →
    (s.setReg .a v).a.extractLsb' 8 8 = s.a.extractLsb' 8 8 ∧
    s.getReg s.widthA .a = .b8 (s.a.extractLsb' 0 8)) ∧
  (∀ (s : State) (v : Value), s.flag .x = false → v.width = s.widthXY →
    (s.setReg .x v).x.extractLsb' 8 8 = s.x.extractLsb' 8 8 ∧
    (s.setReg .y v).y.extractLsb' 8 8 = s.y.extractLsb' 8 8 ∧
    s.getReg s.widthXY .x = .b8 (s.x.extractLsb' 0 8) ∧ s.getReg s.widthXY .y = .b8 (s.y.extractLsb' 0 8))

/-- R45: a ROM-only Mapper supports no write, its read depends on the pair alone, and no step changes it. -/
def Obligations.RomOnlyMapperNeverChanges : Prop :=
  (∀ (image : Memory) (k : Byte) (o : Word) (b : Byte), (Mapper.romOnly image).write k o b = none) ∧
  (∀ (s t : State) (image : Memory), s.mapper = .romOnly image → step s = .next t →
    t.mapper = s.mapper ∧
    ∀ k o, busDecode k o = .mapper k o → t.busRead k o = s.busRead k o)

/-- R11 to R14, R27: no step reads `x`, `y`, `dp` or `sp`: change them before, and only they differ after. -/
def Obligations.IdleRegistersAreNeverRead : Prop :=
  ∀ (s t : State) (x y dp sp : Word), step s = .next t →
    step { s with x := x, y := y, dp := dp, sp := sp } = .next { t with x := x, y := y, dp := dp, sp := sp }

/-- R19, R157: no step reads a flag but M: change the others before, and only flags differ after; the changed flags but I are
kept as they were set. -/
def Obligations.FlagsOtherThanMAreNeverRead : Prop :=
  ∀ (s t : State) (g : Byte), g.getLsbD (Flag.bit .m) = s.flag .m → step s = .next t →
    ∃ g' : Byte, step { s with flags := g } = .next { t with flags := g' } ∧
      ∀ f : Flag, f ≠ .i → g'.getLsbD f.bit = g.getLsbD f.bit

/-! ### Bus and memory (20_memory.md) -/

/-- R41: the four cases of the address decode, in their order; the place of the high region is the parameter `HIGH_BASE`
(its value: D3). -/
def Obligations.BusDecodeFollowsItsFourCases : Prop :=
  ∀ (k : Byte) (o : Word),
    (k.toNat ≤ 0x3F ∧ o.toNat ≤ 0x1FFF → busDecode k o = .ram o.toNat) ∧
    (k = 0x7E → busDecode k o = .ram o.toNat) ∧
    (k = 0x7F → busDecode k o = .ram (Config.highBase + o.toNat)) ∧
    (¬ (k.toNat ≤ 0x3F ∧ o.toNat ≤ 0x1FFF) → k ≠ 0x7E → k ≠ 0x7F → busDecode k o = .mapper k o)

/-- R23, R44, R51 (D3): the decode yields only RAM indices below `RAM_SIZE`; low RAM is mirrored; no pair but `(0x7F, o)`
reaches the high region; and the Mapper is asked only with pairs that are no RAM address. -/
def Obligations.BusTargetsAreTheMapsOwn : Prop :=
  (∀ k o i, busDecode k o = .ram i → i < 0x20000) ∧
  (∀ (k : Byte) (o : Word), k.toNat ≤ 0x3F → o.toNat ≤ 0x1FFF → busDecode k o = busDecode 0x7E o) ∧
  (∀ k o (o' : Word), busDecode k o = busDecode 0x7F o' → k = 0x7F ∧ o = o') ∧
  (∀ k o k' o', busDecode k o = .mapper k' o' →
    k' = k ∧ o' = o ∧ k ≠ 0x7E ∧ k ≠ 0x7F ∧ ¬ (k.toNat ≤ 0x3F ∧ o.toNat ≤ 0x1FFF))

/-- R42: a bus read is the RAM cell or the Mapper's answer. (That it changes no state is in its type.) -/
def Obligations.BusReadAsksItsTarget : Prop :=
  ∀ (s : State) (k : Byte) (o : Word),
    (∀ i, busDecode k o = .ram i → s.busRead k o = s.ram.read i) ∧
    (∀ k' o', busDecode k o = .mapper k' o' → s.busRead k o = s.mapper.read k' o')

/-- R43: a bus write changes the RAM cell and never faults there, or takes the Mapper's new state, or, unsupported, raises
UnsupportedMapperWrite with the state as it was. -/
def Obligations.BusWriteChangesItsTargetOrRaises : Prop :=
  ∀ (s : State) (k : Byte) (o : Word) (b : Byte),
    (∀ i, busDecode k o = .ram i → s.busWrite k o b = .done { s with ram := s.ram.write i b }) ∧
    (∀ k' o', busDecode k o = .mapper k' o' →
      (∀ m, s.mapper.write k' o' b = some m → s.busWrite k o b = .done { s with mapper := m }) ∧
      (s.mapper.write k' o' b = none →
        s.busWrite k o b = .raised (.unsupportedMapperWrite k' o' b) s))

/-- R153: raising a fault writes `halt` and nothing else (that it halts and is kept for inspection: D9). -/
def Obligations.RaiseWritesOnlyHalt : Prop :=
  ∀ (s : State) (f : Fault), (Access.raised f s).settle = { s with halt := .halted f }

/-- R58: at every address that decodes to RAM a byte written is read back, and every address with another target reads as
before. -/
def Obligations.RamWriteThenReadRoundTrips : Prop :=
  ∀ (s : State) (k : Byte) (o : Word) (v : Byte) (i : Nat), busDecode k o = .ram i →
    ∃ t, s.busWrite k o v = .done t ∧ t.busRead k o = v ∧
      ∀ k' o', busDecode k' o' ≠ busDecode k o → t.busRead k' o' = s.busRead k' o'

/-- R59: bank 0x7F offset k and RAM index `HIGH_BASE + k` are one cell, seen from both sides. -/
def Obligations.HighBankIsTheHighRegion : Prop :=
  ∀ (s : State) (k : Word) (v : Byte),
    (∃ t, s.busWrite 0x7F k v = .done t ∧ t.ram.read (Config.highBase + k.toNat) = v) ∧
    { s with ram := s.ram.write (Config.highBase + k.toNat) v }.busRead 0x7F k = v

/-- R46, R47 (D2, D17): a 16-bit read takes its high byte at the next offset of the same bank, offset 0x0000 after 0xFFFF; a
16-bit write is the low byte's write, then the high byte's unless the first raised. -/
def Obligations.SixteenBitAccessWrapsInsideItsBank : Prop :=
  (∀ (s : State) (k : Byte) (o : Word), s.memRead16 k o = s.busRead k (o + 1) ++ s.busRead k o) ∧
  (∀ (s : State) (k : Byte), s.memRead16 k 0xFFFF = s.busRead k 0x0000 ++ s.busRead k 0xFFFF) ∧
  (∀ (s t : State) (k : Byte) (o v : Word), s.busWrite k o (v.extractLsb' 0 8) = .done t →
    s.memWrite16 k o v = t.busWrite k (o + 1) (v.extractLsb' 8 8)) ∧
  (∀ (s t : State) (k : Byte) (o v : Word) (f : Fault), s.busWrite k o (v.extractLsb' 0 8) = .raised f t →
    s.memWrite16 k o v = .raised f t)

/-- R46, R47 (D2): after a 16-bit write into RAM the 16-bit read gives the value, and the two byte reads its halves. -/
def Obligations.SixteenBitStoreIsSeenAtBothWidths : Prop :=
  ∀ (s : State) (k : Byte) (o v : Word) (i j : Nat),
    busDecode k o = .ram i → busDecode k (o + 1) = .ram j →
    ∃ t, s.memWrite16 k o v = .done t ∧ t.memRead16 k o = v ∧
      t.busRead k o = v.extractLsb' 0 8 ∧ t.busRead k (o + 1) = v.extractLsb' 8 8

/-- R56 (D18): a byte stored anywhere that shares the next opcode's RAM cell is the byte the next fetch returns. -/
def Obligations.StoreIsSeenByTheNextFetch : Prop :=
  ∀ (s : State) (k : Byte) (o : Word) (v : Byte) (i : Nat),
    busDecode k o = .ram i → busDecode s.pb s.pc = .ram i →
    ∃ t, s.busWrite k o v = .done t ∧ t.fetch8.1 = v

/-- The canonical form of the model's memory (log entry 9): equal bytes are equal data. -/
def Obligations.CanonicalMemoriesWithEqualBytesAreEqual : Prop :=
  ∀ (bound : Nat) (m m' : Memory), m.wf bound → m'.wf bound → m.fill = m'.fill →
    (∀ i, i < bound → m.read i = m'.read i) → m = m'

/-! ### Width dispatch and addressing modes (40_width_dispatch.md, 41_addressing_modes.md) -/

/-- R20: a clear width flag selects 8 bits and a set one 16 bits; M governs the accumulator class, X the index class. -/
def Obligations.WidthFlagsSelectTheWidths : Prop :=
  ∀ s : State,
    (s.flag .m = false → s.widthA = .w8) ∧ (s.flag .m = true → s.widthA = .w16) ∧
    (s.flag .x = false → s.widthXY = .w8) ∧ (s.flag .x = true → s.widthXY = .w16)

/-- R95: an 8-bit set overwrites only the low byte of the register, a 16-bit set all of it; every other register, every flag
and everything else stay. -/
def Obligations.SetOverwritesOnlyTheWidth : Prop :=
  ∀ (s : State) (r : Reg),
    (∀ b : Byte, (s.setReg r (.b8 b)).reg r = (s.reg r).extractLsb' 8 8 ++ b) ∧
    (∀ n : Word, (s.setReg r (.b16 n)).reg r = n) ∧
    (∀ v r', r' ≠ r → (s.setReg r v).reg r' = s.reg r') ∧
    (∀ v, s.setReg r v = { s with
      a := (s.setReg r v).a, x := (s.setReg r v).x, y := (s.setReg r v).y })

/-- R94, R95: a get at the width of the last set gives the value set. -/
def Obligations.GetAfterSetGivesTheValue : Prop :=
  ∀ (s : State) (r : Reg) (v : Value), (s.setReg r v).getReg v.width r = v

/-- R100: Fetch8 reads the byte at `(pb, pc)` and moves `pc` by one, from 0xFFFF to 0x0000 in the same bank; nothing else
changes. -/
def Obligations.FetchAdvancesInsideItsBank : Prop :=
  ∀ s : State, s.fetch8 = (s.busRead s.pb s.pc, { s with pc := s.pc + 1 }) ∧
    (s.pc = 0xFFFF → s.fetch8.2 = { s with pc := 0x0000 })

/-- R101, R102, R104: Fetch16 and Immediate take the low byte first and advance past what they take; the address-only mode
yields the raw offset. -/
def Obligations.OperandFetchesTakeTheLowByteFirst : Prop :=
  ∀ s : State,
    s.fetch16 = (s.busRead s.pb (s.pc + 1) ++ s.busRead s.pb s.pc, { s with pc := s.pc + 2 }) ∧
    s.absoluteAddress = (s.busRead s.pb (s.pc + 1) ++ s.busRead s.pb s.pc, { s with pc := s.pc + 2 }) ∧
    s.immediate .w8 = (.b8 (s.busRead s.pb s.pc), { s with pc := s.pc + 1 }) ∧
    s.immediate .w16 =
      (.b16 (s.busRead s.pb (s.pc + 1) ++ s.busRead s.pb s.pc), { s with pc := s.pc + 2 })

/-- R103 (data byte order: D2): Absolute (value) reads at `(db, addr)`, `addr` the fetched offset; `pc` advances by 2 whatever
the width. -/
def Obligations.AbsoluteValueReadsTheDataBank : Prop :=
  ∀ (s : State) (addr : Word), addr = s.busRead s.pb (s.pc + 1) ++ s.busRead s.pb s.pc →
    s.absoluteValue .w8 = (.b8 (s.busRead s.db addr), { s with pc := s.pc + 2 }) ∧
    s.absoluteValue .w16 =
      (.b16 (s.busRead s.db (addr + 1) ++ s.busRead s.db addr), { s with pc := s.pc + 2 })

/-- R105: PC-relative consumes its byte whether or not the predicate holds, and adds the signed displacement, modulo 0x10000,
only when it holds; `pb` and everything else stay. -/
def Obligations.PcRelativeAddsOnlyWhenThePredicateHolds : Prop :=
  ∀ s : State,
    s.pcRelative true = { s with pc := s.pc + 1 + (s.busRead s.pb s.pc).signExtend 16 } ∧
    s.pcRelative false = { s with pc := s.pc + 1 }

/-- R92, R93, R96 (byte order D2): the memory primitives of each width are the one- and two-byte accesses; `zero_W` is all
zeros. -/
def Obligations.ValueAccessesFollowTheirWidth : Prop :=
  ∀ (s : State) (k : Byte) (o : Word),
    s.readValue .w8 k o = .b8 (s.busRead k o) ∧
    s.readValue .w16 k o = .b16 (s.busRead k (o + 1) ++ s.busRead k o) ∧
    (∀ b, s.writeValue k o (.b8 b) = s.busWrite k o b) ∧
    (∀ n, s.writeValue k o (.b16 n) = s.memWrite16 k o n) ∧
    zeroValue .w8 = .b8 0x00 ∧ zeroValue .w16 = .b16 0x0000

/-! ### Reset and the host (10_state.md R28, 70_reset_and_hazards.md) -/

/-- R28, R170, R171: the state a construction leaves, for every `RAM_FILL` and every Mapper (D2, D4, D5, D6, D7, D9, D23 give
the numbers); `State.reset` is one of them, with the fill and the cartridge of log entries 2 and 3. -/
def Obligations.ConstructionLeavesTheResetValues : Prop :=
  (∀ (fill : Byte) (m : Mapper) (s : State), s = State.construct fill m →
    s.a = 0 ∧ s.x = 0 ∧ s.y = 0 ∧ s.dp = 0 ∧ s.sp = 0x01FF ∧ s.db = 0 ∧ s.pb = 0 ∧ s.flags = 0x04 ∧
    s.pc = m.read 0x00 0xFFFD ++ m.read 0x00 0xFFFC ∧
    (∀ i, s.ram.read i = fill) ∧ s.mapper = m ∧ s.halt = .running) ∧
  ∃ (fill : Byte) (m : Mapper), fill ≠ 0 ∧ m.wf ∧ State.reset = State.construct fill m

/-- R176 (D16, D23): the title is 21 bytes, byte i read at `(0x00, 0xFFC0 + i)`. -/
def Obligations.GameTitleReadsTwentyOneBytes : Prop :=
  ∀ s : State, s.gameTitle.length = 21 ∧
    ∀ i : Nat, i < 21 → s.gameTitle[i]? = some (s.busRead 0x00 (0xFFC0 + BitVec.ofNat 16 i))

/-- R138 (D15): a run of steps always answers a next state, and how the host groups steps into frames changes nothing: a frame
is the run of `STEPS_PER_FRAME` steps, whatever that number is, and two frames are the run of twice as many. -/
def Obligations.GroupingStepsIntoFramesChangesNothing : Prop :=
  (∀ (s : State) (m n : Nat), ∃ t, s.run m = .next t ∧ s.run (m + n) = t.run n) ∧
  ∀ s : State, ∃ t, s.runFrame = .next t ∧ s.runFrame = s.run Config.stepsPerFrame ∧
    t.runFrame = s.run (Config.stepsPerFrame + Config.stepsPerFrame)

/-- R138, R130, R141: at the self-branch `80 FE` a running core stays as it is for any number of steps, and never halts. -/
def Obligations.SelfBranchIsAFixedPoint : Prop :=
  ∀ (s : State) (n : Nat), s.halt = .running → s.atSelfBranch →
    s.run n = .next s ∧ s.SafeFor n
end

