-- ==== Sys2Proof/Laws/Memory.lean ====
section
/-! SUPPORT. The laws of `Memory`: read after write, and the canonical form is kept. -/

namespace Sys2Proof.Machine

@[simp] theorem Memory.find_insert_same (i : Nat) (b : Byte) (l : List Host.Cell) :
    Memory.find i (Memory.insert i b l) = some b := by
  induction l with
  | nil => simp [Memory.insert, Memory.find]
  | cons c rest ih =>
    obtain ⟨k, v⟩ := c
    unfold Memory.insert
    split
    · simp [Memory.find]
    · split
      · simp [Memory.find]
      · rename_i _ hik
        simpa [Memory.find, Ne.symm hik] using ih

theorem Memory.find_insert_other {i j : Nat} (h : j ≠ i) (b : Byte) (l : List Host.Cell) :
    Memory.find j (Memory.insert i b l) = Memory.find j l := by
  induction l with
  | nil => simp [Memory.insert, Memory.find, Ne.symm h]
  | cons c rest ih =>
    obtain ⟨k, v⟩ := c
    unfold Memory.insert
    split
    · simp [Memory.find, Ne.symm h]
    · split
      · rename_i _ hik
        subst hik
        simp [Memory.find, Ne.symm h]
      · simp [Memory.find, ih]

@[simp] theorem Memory.find_erase_same (i : Nat) (l : List Host.Cell) :
    Memory.find i (Memory.erase i l) = none := by
  induction l with
  | nil => rfl
  | cons c rest ih =>
    obtain ⟨k, v⟩ := c
    unfold Memory.erase
    split
    · exact ih
    · rename_i hk
      simpa [Memory.find, hk] using ih

theorem Memory.find_erase_other {i j : Nat} (h : j ≠ i) (l : List Host.Cell) :
    Memory.find j (Memory.erase i l) = Memory.find j l := by
  induction l with
  | nil => rfl
  | cons c rest ih =>
    obtain ⟨k, v⟩ := c
    unfold Memory.erase
    split
    · rename_i hk
      subst hk
      simpa [Memory.find, Ne.symm h] using ih
    · simp [Memory.find, ih]

@[simp] theorem Memory.write_fill (m : Memory) (i : Nat) (b : Byte) : (m.write i b).fill = m.fill := rfl

/-- A read of the byte written gives the value written. -/
@[simp] theorem Memory.read_write_same (m : Memory) (i : Nat) (b : Byte) : (m.write i b).read i = b := by
  unfold Memory.read Memory.write
  by_cases h : b = m.fill <;> simp [h]

/-- A write leaves every other byte. -/
theorem Memory.read_write_other (m : Memory) {i j : Nat} (h : j ≠ i) (b : Byte) : (m.write i b).read j = m.read j := by
  unfold Memory.read Memory.write
  by_cases hb : b = m.fill <;> simp [hb, Memory.find_insert_other h, Memory.find_erase_other h]

theorem Memory.mem_erase {i : Nat} {l : List Host.Cell} {c : Host.Cell} (h : c ∈ Memory.erase i l) : c ∈ l := by
  induction l with
  | nil => simp [Memory.erase] at h
  | cons d rest ih =>
    obtain ⟨k, v⟩ := d
    unfold Memory.erase at h
    split at h
    · exact List.mem_cons_of_mem _ (ih h)
    · rcases List.mem_cons.1 h with rfl | h'
      · exact List.mem_cons_self
      · exact List.mem_cons_of_mem _ (ih h')

theorem Memory.mem_insert {i : Nat} {b : Byte} {l : List Host.Cell} {c : Host.Cell}
    (h : c ∈ Memory.insert i b l) : c = (i, b) ∨ c ∈ l := by
  induction l with
  | nil => simpa [Memory.insert] using h
  | cons d rest ih =>
    obtain ⟨k, v⟩ := d
    unfold Memory.insert at h
    split at h
    · exact List.mem_cons.1 h
    · split at h
      · rcases List.mem_cons.1 h with h' | h'
        · exact .inl h'
        · exact .inr (List.mem_cons_of_mem _ h')
      · rcases List.mem_cons.1 h with rfl | h'
        · exact .inr List.mem_cons_self
        · exact (ih h').imp_right (List.mem_cons_of_mem _)

theorem Memory.rising_erase {i : Nat} {l : List Host.Cell} (h : l.Pairwise (fun p q => p.1 < q.1)) :
    (Memory.erase i l).Pairwise (fun p q => p.1 < q.1) := by
  induction l with
  | nil => exact List.Pairwise.nil
  | cons d rest ih =>
    obtain ⟨k, v⟩ := d
    obtain ⟨hd, hr⟩ := List.pairwise_cons.1 h
    unfold Memory.erase
    split
    · exact ih hr
    · exact List.pairwise_cons.2 ⟨fun c hc => hd c (Memory.mem_erase hc), ih hr⟩

theorem Memory.rising_insert {i : Nat} {b : Byte} {l : List Host.Cell} (h : l.Pairwise (fun p q => p.1 < q.1)) :
    (Memory.insert i b l).Pairwise (fun p q => p.1 < q.1) := by
  induction l with
  | nil => exact List.pairwise_singleton _ _
  | cons d rest ih =>
    obtain ⟨k, v⟩ := d
    obtain ⟨hd, hr⟩ := List.pairwise_cons.1 h
    unfold Memory.insert
    split
    · rename_i hik
      refine List.pairwise_cons.2 ⟨fun c hc => ?_, h⟩
      rcases List.mem_cons.1 hc with rfl | hc
      · exact hik
      · exact Nat.lt_trans hik (hd c hc)
    · split
      · rename_i _ hik
        subst hik
        exact List.pairwise_cons.2 ⟨fun c hc => hd c hc, hr⟩
      · rename_i h1 h2
        refine List.pairwise_cons.2 ⟨fun c hc => ?_, ih hr⟩
        rcases Memory.mem_insert hc with rfl | hc
        · show k < i
          omega
        · exact hd c hc

/-- Every write keeps the canonical form. -/
theorem Memory.wf_write {bound : Nat} {m : Memory} (h : m.wf bound) {i : Nat} (hi : i < bound) (b : Byte) :
    (m.write i b).wf bound := by
  obtain ⟨hr, hc⟩ := h
  by_cases hb : b = m.fill
  · refine ⟨?_, fun c hcm => hc c ?_⟩
    · simpa [Memory.write, hb] using Memory.rising_erase hr
    · exact Memory.mem_erase (by simpa [Memory.write, hb] using hcm)
  · refine ⟨?_, fun c hcm => ?_⟩
    · simpa [Memory.write, hb] using Memory.rising_insert hr
    · rcases Memory.mem_insert (i := i) (b := b) (l := m.cells) (by simpa [Memory.write, hb] using hcm) with rfl | h'
      · exact ⟨hi, hb⟩
      · exact hc c h'

/-- Memory with nothing listed is canonical. -/
theorem Memory.wf_empty (bound : Nat) (fill : Byte) : (Memory.mk [] fill).wf bound :=
  ⟨List.Pairwise.nil, fun _ h => absurd h List.not_mem_nil⟩

end Sys2Proof.Machine
end

