-- ==== Sys2Proof/Laws/State.lean ====
section
/-! SUPPORT. One lemma per field per named update of State, so that no later proof unfolds a record update. -/

namespace Sys2Proof.Machine


/-! `raise` -/

@[simp] theorem State.raise_a (s : State) (e : Fault) : (s.raise e).a = s.a := rfl
@[simp] theorem State.raise_x (s : State) (e : Fault) : (s.raise e).x = s.x := rfl
@[simp] theorem State.raise_y (s : State) (e : Fault) : (s.raise e).y = s.y := rfl
@[simp] theorem State.raise_dp (s : State) (e : Fault) : (s.raise e).dp = s.dp := rfl
@[simp] theorem State.raise_sp (s : State) (e : Fault) : (s.raise e).sp = s.sp := rfl
@[simp] theorem State.raise_db (s : State) (e : Fault) : (s.raise e).db = s.db := rfl
@[simp] theorem State.raise_pc (s : State) (e : Fault) : (s.raise e).pc = s.pc := rfl
@[simp] theorem State.raise_pb (s : State) (e : Fault) : (s.raise e).pb = s.pb := rfl
@[simp] theorem State.raise_flags (s : State) (e : Fault) : (s.raise e).flags = s.flags := rfl
@[simp] theorem State.raise_ram (s : State) (e : Fault) : (s.raise e).ram = s.ram := rfl
@[simp] theorem State.raise_mapper (s : State) (e : Fault) : (s.raise e).mapper = s.mapper := rfl
@[simp] theorem State.raise_halt (s : State) (e : Fault) : (s.raise e).halt = .halted e := rfl

/-! `advance` -/

@[simp] theorem State.advance_a (s : State) (n : Nat) : (s.advance n).a = s.a := rfl
@[simp] theorem State.advance_x (s : State) (n : Nat) : (s.advance n).x = s.x := rfl
@[simp] theorem State.advance_y (s : State) (n : Nat) : (s.advance n).y = s.y := rfl
@[simp] theorem State.advance_dp (s : State) (n : Nat) : (s.advance n).dp = s.dp := rfl
@[simp] theorem State.advance_sp (s : State) (n : Nat) : (s.advance n).sp = s.sp := rfl
@[simp] theorem State.advance_db (s : State) (n : Nat) : (s.advance n).db = s.db := rfl
@[simp] theorem State.advance_pc (s : State) (n : Nat) : (s.advance n).pc = s.pc + BitVec.ofNat 16 n := rfl
@[simp] theorem State.advance_pb (s : State) (n : Nat) : (s.advance n).pb = s.pb := rfl
@[simp] theorem State.advance_flags (s : State) (n : Nat) : (s.advance n).flags = s.flags := rfl
@[simp] theorem State.advance_ram (s : State) (n : Nat) : (s.advance n).ram = s.ram := rfl
@[simp] theorem State.advance_mapper (s : State) (n : Nat) : (s.advance n).mapper = s.mapper := rfl
@[simp] theorem State.advance_halt (s : State) (n : Nat) : (s.advance n).halt = s.halt := rfl

/-! `setFlag` -/

@[simp] theorem State.setFlag_a (s : State) (f : Flag) : (s.setFlag f).a = s.a := rfl
@[simp] theorem State.setFlag_x (s : State) (f : Flag) : (s.setFlag f).x = s.x := rfl
@[simp] theorem State.setFlag_y (s : State) (f : Flag) : (s.setFlag f).y = s.y := rfl
@[simp] theorem State.setFlag_dp (s : State) (f : Flag) : (s.setFlag f).dp = s.dp := rfl
@[simp] theorem State.setFlag_sp (s : State) (f : Flag) : (s.setFlag f).sp = s.sp := rfl
@[simp] theorem State.setFlag_db (s : State) (f : Flag) : (s.setFlag f).db = s.db := rfl
@[simp] theorem State.setFlag_pc (s : State) (f : Flag) : (s.setFlag f).pc = s.pc := rfl
@[simp] theorem State.setFlag_pb (s : State) (f : Flag) : (s.setFlag f).pb = s.pb := rfl
@[simp] theorem State.setFlag_flags (s : State) (f : Flag) : (s.setFlag f).flags = s.flags ||| f.mask := rfl
@[simp] theorem State.setFlag_ram (s : State) (f : Flag) : (s.setFlag f).ram = s.ram := rfl
@[simp] theorem State.setFlag_mapper (s : State) (f : Flag) : (s.setFlag f).mapper = s.mapper := rfl
@[simp] theorem State.setFlag_halt (s : State) (f : Flag) : (s.setFlag f).halt = s.halt := rfl

/-! `branchIf true` -/

@[simp] theorem State.branch_a (s : State) (d : Byte) : (s.branchIf true d).a = s.a := rfl
@[simp] theorem State.branch_x (s : State) (d : Byte) : (s.branchIf true d).x = s.x := rfl
@[simp] theorem State.branch_y (s : State) (d : Byte) : (s.branchIf true d).y = s.y := rfl
@[simp] theorem State.branch_dp (s : State) (d : Byte) : (s.branchIf true d).dp = s.dp := rfl
@[simp] theorem State.branch_sp (s : State) (d : Byte) : (s.branchIf true d).sp = s.sp := rfl
@[simp] theorem State.branch_db (s : State) (d : Byte) : (s.branchIf true d).db = s.db := rfl
@[simp] theorem State.branch_pc (s : State) (d : Byte) : (s.branchIf true d).pc = s.pc + sext16 d := rfl
@[simp] theorem State.branch_pb (s : State) (d : Byte) : (s.branchIf true d).pb = s.pb := rfl
@[simp] theorem State.branch_flags (s : State) (d : Byte) : (s.branchIf true d).flags = s.flags := rfl
@[simp] theorem State.branch_ram (s : State) (d : Byte) : (s.branchIf true d).ram = s.ram := rfl
@[simp] theorem State.branch_mapper (s : State) (d : Byte) : (s.branchIf true d).mapper = s.mapper := rfl
@[simp] theorem State.branch_halt (s : State) (d : Byte) : (s.branchIf true d).halt = s.halt := rfl

/-! `putReg .a` -/

@[simp] theorem State.putA_a (s : State) (v : Word) : (s.putReg .a v).a = v := rfl
@[simp] theorem State.putA_x (s : State) (v : Word) : (s.putReg .a v).x = s.x := rfl
@[simp] theorem State.putA_y (s : State) (v : Word) : (s.putReg .a v).y = s.y := rfl
@[simp] theorem State.putA_dp (s : State) (v : Word) : (s.putReg .a v).dp = s.dp := rfl
@[simp] theorem State.putA_sp (s : State) (v : Word) : (s.putReg .a v).sp = s.sp := rfl
@[simp] theorem State.putA_db (s : State) (v : Word) : (s.putReg .a v).db = s.db := rfl
@[simp] theorem State.putA_pc (s : State) (v : Word) : (s.putReg .a v).pc = s.pc := rfl
@[simp] theorem State.putA_pb (s : State) (v : Word) : (s.putReg .a v).pb = s.pb := rfl
@[simp] theorem State.putA_flags (s : State) (v : Word) : (s.putReg .a v).flags = s.flags := rfl
@[simp] theorem State.putA_ram (s : State) (v : Word) : (s.putReg .a v).ram = s.ram := rfl
@[simp] theorem State.putA_mapper (s : State) (v : Word) : (s.putReg .a v).mapper = s.mapper := rfl
@[simp] theorem State.putA_halt (s : State) (v : Word) : (s.putReg .a v).halt = s.halt := rfl

/-! `putReg .x` -/

@[simp] theorem State.putX_a (s : State) (v : Word) : (s.putReg .x v).a = s.a := rfl
@[simp] theorem State.putX_x (s : State) (v : Word) : (s.putReg .x v).x = v := rfl
@[simp] theorem State.putX_y (s : State) (v : Word) : (s.putReg .x v).y = s.y := rfl
@[simp] theorem State.putX_dp (s : State) (v : Word) : (s.putReg .x v).dp = s.dp := rfl
@[simp] theorem State.putX_sp (s : State) (v : Word) : (s.putReg .x v).sp = s.sp := rfl
@[simp] theorem State.putX_db (s : State) (v : Word) : (s.putReg .x v).db = s.db := rfl
@[simp] theorem State.putX_pc (s : State) (v : Word) : (s.putReg .x v).pc = s.pc := rfl
@[simp] theorem State.putX_pb (s : State) (v : Word) : (s.putReg .x v).pb = s.pb := rfl
@[simp] theorem State.putX_flags (s : State) (v : Word) : (s.putReg .x v).flags = s.flags := rfl
@[simp] theorem State.putX_ram (s : State) (v : Word) : (s.putReg .x v).ram = s.ram := rfl
@[simp] theorem State.putX_mapper (s : State) (v : Word) : (s.putReg .x v).mapper = s.mapper := rfl
@[simp] theorem State.putX_halt (s : State) (v : Word) : (s.putReg .x v).halt = s.halt := rfl

/-! `putReg .y` -/

@[simp] theorem State.putY_a (s : State) (v : Word) : (s.putReg .y v).a = s.a := rfl
@[simp] theorem State.putY_x (s : State) (v : Word) : (s.putReg .y v).x = s.x := rfl
@[simp] theorem State.putY_y (s : State) (v : Word) : (s.putReg .y v).y = v := rfl
@[simp] theorem State.putY_dp (s : State) (v : Word) : (s.putReg .y v).dp = s.dp := rfl
@[simp] theorem State.putY_sp (s : State) (v : Word) : (s.putReg .y v).sp = s.sp := rfl
@[simp] theorem State.putY_db (s : State) (v : Word) : (s.putReg .y v).db = s.db := rfl
@[simp] theorem State.putY_pc (s : State) (v : Word) : (s.putReg .y v).pc = s.pc := rfl
@[simp] theorem State.putY_pb (s : State) (v : Word) : (s.putReg .y v).pb = s.pb := rfl
@[simp] theorem State.putY_flags (s : State) (v : Word) : (s.putReg .y v).flags = s.flags := rfl
@[simp] theorem State.putY_ram (s : State) (v : Word) : (s.putReg .y v).ram = s.ram := rfl
@[simp] theorem State.putY_mapper (s : State) (v : Word) : (s.putReg .y v).mapper = s.mapper := rfl
@[simp] theorem State.putY_halt (s : State) (v : Word) : (s.putReg .y v).halt = s.halt := rfl

/-! `setReg .a` -/

@[simp] theorem State.setA_a (s : State) (v : Value) : (s.setReg .a v).a = mergeInto s.a v := rfl
@[simp] theorem State.setA_x (s : State) (v : Value) : (s.setReg .a v).x = s.x := rfl
@[simp] theorem State.setA_y (s : State) (v : Value) : (s.setReg .a v).y = s.y := rfl
@[simp] theorem State.setA_dp (s : State) (v : Value) : (s.setReg .a v).dp = s.dp := rfl
@[simp] theorem State.setA_sp (s : State) (v : Value) : (s.setReg .a v).sp = s.sp := rfl
@[simp] theorem State.setA_db (s : State) (v : Value) : (s.setReg .a v).db = s.db := rfl
@[simp] theorem State.setA_pc (s : State) (v : Value) : (s.setReg .a v).pc = s.pc := rfl
@[simp] theorem State.setA_pb (s : State) (v : Value) : (s.setReg .a v).pb = s.pb := rfl
@[simp] theorem State.setA_flags (s : State) (v : Value) : (s.setReg .a v).flags = s.flags := rfl
@[simp] theorem State.setA_ram (s : State) (v : Value) : (s.setReg .a v).ram = s.ram := rfl
@[simp] theorem State.setA_mapper (s : State) (v : Value) : (s.setReg .a v).mapper = s.mapper := rfl
@[simp] theorem State.setA_halt (s : State) (v : Value) : (s.setReg .a v).halt = s.halt := rfl

/-! `fetch8` and `fetch16` only move `pc` -/

@[simp] theorem State.fetch8_state (s : State) : s.fetch8.2 = s.advance 1 := rfl
@[simp] theorem State.fetch8_byte (s : State) : s.fetch8.1 = s.busRead s.pb s.pc := rfl

/-- Two advances are one. -/
@[simp] theorem State.advance_advance (s : State) (m n : Nat) : (s.advance m).advance n = s.advance (m + n) := by
  simp [State.advance, BitVec.add_assoc, BitVec.ofNat_add]

@[simp] theorem State.fetch16_state (s : State) : s.fetch16.2 = s.advance 2 := by
  simp [State.fetch16]

/-- Moving `pc` changes nothing the bus reads. -/
@[simp] theorem State.busRead_advance (s : State) (n : Nat) (k : Byte) (o : Word) :
    (s.advance n).busRead k o = s.busRead k o := rfl

/-- Moving `pc` changes no width. -/
@[simp] theorem State.widthA_advance (s : State) (n : Nat) : (s.advance n).widthA = s.widthA := rfl

/-- A branch not taken changes nothing (R105). -/
@[simp] theorem State.branchIf_false (s : State) (d : Byte) : s.branchIf false d = s := rfl

end Sys2Proof.Machine
end

