-- ==== Sys2Proof/Laws/Bus.lean ====
section
/-! SUPPORT. What the bus operations can do, once: the decode, one write, one store of a value. -/

namespace Sys2Proof.Machine

/-- Every RAM index the decode yields is inside RAM (10_state.md R23). -/
theorem busDecode_ram_lt {k : Byte} {o : Word} {i : Nat} (h : busDecode k o = .ram i) : i < Config.ramSize := by
  have ho := o.isLt
  unfold busDecode at h
  simp only [Config.ramSize, Config.highBase] at *
  split at h
  · cases h; omega
  · split at h
    · cases h; omega
    · split at h
      · cases h; omega
      · cases h

/-- The Mapper is asked with the pair unchanged (20_memory.md R41, case 4). -/
theorem busDecode_mapper_eq {k k' : Byte} {o o' : Word} (h : busDecode k o = .mapper k' o') : k' = k ∧ o' = o := by
  unfold busDecode at h
  split at h
  · cases h
  · split at h
    · cases h
    · split at h
      · cases h
      · cases h; exact ⟨rfl, rfl⟩

/-- A full address is one of the 2^24 locations (R40). -/
theorem fullAddress_lt (k : Byte) (o : Word) : fullAddress k o < Config.addressSpace := by
  have hk := k.isLt
  have ho := o.isLt
  unfold fullAddress Config.addressSpace
  omega

/-- Different pairs have different full addresses. -/
theorem fullAddress_inj {k k' : Byte} {o o' : Word} (h : fullAddress k o = fullAddress k' o') : k = k' ∧ o = o' := by
  have h1 := o.isLt
  have h2 := o'.isLt
  unfold fullAddress at h
  exact ⟨BitVec.eq_of_toNat_eq (by omega), BitVec.eq_of_toNat_eq (by omega)⟩

/-- A Mapper write keeps every image canonical. -/
theorem Mapper.wf_write {m m' : Mapper} {k : Byte} {o : Word} {b : Byte} (h : m.wf) (hw : m.write k o b = some m') :
    m'.wf := by
  cases m with
  | romOnly image => simp [Mapper.write] at hw
  | saveRam image windows =>
    simp only [Mapper.write] at hw
    split at hw
    · cases hw
      intro img himg
      simp only [Mapper.images, List.mem_singleton] at himg
      subst himg
      exact Memory.wf_write (h image (by simp [Mapper.images])) (fullAddress_lt k o) b
    · cases hw
  | custom data =>
    simp only [Mapper.write, Option.map_eq_some_iff] at hw
    obtain ⟨d, -, rfl⟩ := hw
    intro img himg
    simp [Mapper.images] at himg

/-- Everything one bus write can do (R43): a RAM cell written, the Mapper's new state, or the fault with nothing changed. -/
theorem State.busWrite_cases (s : State) (k : Byte) (o : Word) (b : Byte) :
    (∃ i, busDecode k o = .ram i ∧ s.busWrite k o b = .done { s with ram := s.ram.write i b }) ∨
    (∃ m, busDecode k o = .mapper k o ∧ s.mapper.write k o b = some m ∧
      s.busWrite k o b = .done { s with mapper := m }) ∨
    (busDecode k o = .mapper k o ∧ s.mapper.write k o b = none ∧
      s.busWrite k o b = .raised (.unsupportedMapperWrite k o b) s) := by
  unfold State.busWrite
  cases hd : busDecode k o with
  | ram i => exact .inl ⟨i, rfl, rfl⟩
  | mapper k' o' =>
    obtain ⟨rfl, rfl⟩ := busDecode_mapper_eq hd
    cases hm : s.mapper.write k' o' b with
    | none => exact .inr (.inr ⟨rfl, rfl, by simp [hm]⟩)
    | some m => exact .inr (.inl ⟨m, rfl, rfl, by simp [hm]⟩)

/-- The state an access ended in, before any fault is taken. -/
def Access.state : Access → State
  | .done s => s
  | .raised _ s => s

/-- The part of the state no bus write touches. -/
structure SameButStorage (s t : State) : Prop where
  eq : t = { s with ram := t.ram, mapper := t.mapper }
  fill : t.ram.fill = s.ram.fill

theorem SameButStorage.rfl' (s : State) : SameButStorage s s := ⟨rfl, rfl⟩

theorem SameButStorage.trans' {s t u : State} (h : SameButStorage s t) (h' : SameButStorage t u) :
    SameButStorage s u := by
  refine ⟨?_, h'.fill.trans h.fill⟩
  have h1 := h.eq
  have h2 := h'.eq
  rw [h2, h1]

/-- One bus write changes RAM and the Mapper only, and keeps the invariant. -/
theorem State.busWrite_same (s : State) (k : Byte) (o : Word) (b : Byte) :
    SameButStorage s (s.busWrite k o b).state := by
  rcases s.busWrite_cases k o b with ⟨i, -, h⟩ | ⟨m, -, -, h⟩ | ⟨-, -, h⟩ <;> rw [h] <;> exact ⟨rfl, rfl⟩

theorem State.busWrite_inv {s : State} (h : s.Inv) (k : Byte) (o : Word) (b : Byte) : (s.busWrite k o b).state.Inv := by
  rcases s.busWrite_cases k o b with ⟨i, hd, hw⟩ | ⟨m, -, hm, hw⟩ | ⟨-, -, hw⟩ <;> rw [hw]
  · exact ⟨Memory.wf_write h.1 (busDecode_ram_lt hd) b, h.2.1, h.2.2⟩
  · exact ⟨h.1, h.2.1, Mapper.wf_write h.2.2 hm⟩
  · exact h

/-- A 16-bit store is its first byte's write, and then the second's unless the first raised (R47). -/
theorem State.memWrite16_cases (s : State) (k : Byte) (o v : Word) :
    (∃ s', s.busWrite k o (lo8 v) = .done s' ∧ s.memWrite16 k o v = s'.busWrite k (o + 1) (hi8 v)) ∨
    (∃ f s', s.busWrite k o (lo8 v) = .raised f s' ∧ s.memWrite16 k o v = .raised f s') := by
  unfold State.memWrite16
  cases h : s.busWrite k o (lo8 v) with
  | done s' => exact .inl ⟨s', rfl, rfl⟩
  | raised f s' => exact .inr ⟨f, s', rfl, rfl⟩

/-- A store of either width changes RAM and the Mapper only. -/
theorem State.writeValue_same (s : State) (k : Byte) (o : Word) (v : Value) :
    SameButStorage s (s.writeValue k o v).state := by
  cases v with
  | b8 b => exact s.busWrite_same k o b
  | b16 n =>
    show SameButStorage s (s.memWrite16 k o n).state
    have h1 := s.busWrite_same k o (lo8 n)
    rcases s.memWrite16_cases k o n with ⟨s', hb, hw⟩ | ⟨f, s', hb, hw⟩
    · rw [hw]; rw [hb] at h1
      exact h1.trans' (s'.busWrite_same k (o + 1) (hi8 n))
    · rw [hw]; rw [hb] at h1; exact h1

/-- A store of either width keeps the invariant. -/
theorem State.writeValue_inv {s : State} (h : s.Inv) (k : Byte) (o : Word) (v : Value) :
    (s.writeValue k o v).state.Inv := by
  cases v with
  | b8 b => exact State.busWrite_inv h k o b
  | b16 n =>
    show (s.memWrite16 k o n).state.Inv
    have h1 := State.busWrite_inv h k o (lo8 n)
    rcases s.memWrite16_cases k o n with ⟨s', hb, hw⟩ | ⟨f, s', hb, hw⟩
    · rw [hw]; rw [hb] at h1
      exact State.busWrite_inv h1 k (o + 1) (hi8 n)
    · rw [hw]; rw [hb] at h1; exact h1

/-- Taking a store's fault changes `halt` only. -/
theorem Access.settle_eq (x : Access) : x.settle = { x.state with halt := x.settle.halt } := by
  cases x <;> rfl

/-- A byte of RAM written is read back (R58). -/
theorem State.busRead_ram {s : State} {k : Byte} {o : Word} {i : Nat} (h : busDecode k o = .ram i) :
    s.busRead k o = s.ram.read i := by
  simp [State.busRead, readBus, h]

/-- A byte behind the Mapper is the Mapper's answer (R42). -/
theorem State.busRead_mapper {s : State} {k : Byte} {o : Word} (h : busDecode k o = .mapper k o) :
    s.busRead k o = s.mapper.read k o := by
  simp [State.busRead, readBus, h]

/-- A preset keeps the invariant. -/
theorem State.poke_inv {s : State} (h : s.Inv) (k : Byte) (o : Word) (b : Byte) : (s.poke k o b).Inv := by
  obtain ⟨h1, h2, h3⟩ := h
  unfold State.poke
  cases hd : busDecode k o with
  | ram i => exact ⟨Memory.wf_write h1 (busDecode_ram_lt hd) b, h2, h3⟩
  | mapper k' o' =>
    cases hm : s.mapper with
    | romOnly image =>
      rw [hm] at h3
      refine ⟨h1, h2, fun img himg => ?_⟩
      simp only [Mapper.images, List.mem_singleton] at himg
      subst himg
      exact Memory.wf_write (h3 image (by simp [Mapper.images])) (fullAddress_lt k' o') b
    | saveRam image windows =>
      rw [hm] at h3
      refine ⟨h1, h2, fun img himg => ?_⟩
      simp only [Mapper.images, List.mem_singleton] at himg
      subst himg
      exact Memory.wf_write (h3 image (by simp [Mapper.images])) (fullAddress_lt k' o') b
    | custom data => exact ⟨h1, h2, h3⟩

end Sys2Proof.Machine
end

