-- ==== Sys2Proof/Laws/Decode.lean ====
section
/-! SUPPORT. Small laws of the byte helpers, the opcode map and the decoder. -/

namespace Sys2Proof

/-- `{h, l}` is `h * 256 + l` (00_scope.md R6). -/
theorem cat16_toNat (h l : Byte) : (cat16 h l).toNat = h.toNat * 256 + l.toNat := by
  show BitVec.toNat (w := 8 + 8) (h ++ l) = _
  rw [BitVec.toNat_append, ← Nat.shiftLeft_add_eq_or_of_lt l.isLt, Nat.shiftLeft_eq]

@[simp] theorem lo8_cat16 (h l : Byte) : lo8 (cat16 h l) = l := BitVec.extractLsb'_append_eq_right

@[simp] theorem hi8_cat16 (h l : Byte) : hi8 (cat16 h l) = h := BitVec.extractLsb'_append_eq_left

@[simp] theorem cat16_hi8_lo8 (v : Word) : cat16 (hi8 v) (lo8 v) = v := by
  apply BitVec.eq_of_toNat_eq
  have := v.isLt
  rw [cat16_toNat]
  simp only [hi8, lo8, BitVec.extractLsb'_toNat, Nat.shiftRight_eq_div_pow]
  omega

/-- The lookup finds each opcode at its byte (R76). -/
@[simp] theorem Opcode.ofByte_byte (o : Opcode) : Opcode.ofByte o.byte = some o := by cases o <;> decide

/-- The lookup answers an opcode only at its byte. -/
theorem Opcode.ofByte_some {b : Byte} {o : Opcode} (h : Opcode.ofByte b = some o) : b = o.byte := by
  unfold Opcode.ofByte at h
  repeat' split at h
  all_goals first
    | (cases h; assumption)
    | cases h

/-- Three bytes never leave an instruction unfinished (R75). -/
theorem decode_three_ne_truncated (w : Width) (b0 b1 b2 : Byte) : decode w [b0, b1, b2] ≠ .error .truncated := by
  cases h : Opcode.ofByte b0 with
  | none => simp [decode, h]
  | some o => cases o <;> cases w <;> simp [decode, h, Opcode.operand]

end Sys2Proof
end

