-- ==== Sys2Proof/Laws/PerInstr.lean ====
section
/-! SUPPORT. Per-instruction lemmas: decoding what the encoder writes gives the instruction back. -/

namespace Sys2Proof.Laws.RoundTrip

/-- At every width the instruction exists at, its bytes decode to it, whatever follows them. -/
def Statement (i : Instr) : Prop :=
  ∀ (w : Width) (rest : List Byte), i.wellFormed w = true → decode w (encode i ++ rest) = .ok (i, rest)

theorem sei : Statement .sei := fun _ _ _ => by
  simp [encode, decode, Instr.opcode, Instr.operandBytes, Opcode.operand]

theorem braDisp (disp : Byte) : Statement (.braDisp disp) := fun _ _ _ => by
  simp [encode, decode, Instr.opcode, Instr.operandBytes, Opcode.operand]

theorem stzAddr (addr : Word) : Statement (.stzAddr addr) := fun _ _ _ => by
  simp [encode, decode, Instr.opcode, Instr.operandBytes, Opcode.operand]

theorem ldaImm (imm : Value) : Statement (.ldaImm imm) := fun w _ h => by
  cases imm <;> cases w <;>
    simp_all [encode, decode, Instr.opcode, Instr.operandBytes, Opcode.operand, Instr.wellFormed, Value.width, Value.bytes]

theorem ldaAddr (addr : Word) : Statement (.ldaAddr addr) := fun _ _ _ => by
  simp [encode, decode, Instr.opcode, Instr.operandBytes, Opcode.operand]

end Sys2Proof.Laws.RoundTrip
end

