-- ==== Sys2Proof/Laws/Step.lean ====
section
/-! SUPPORT. What the flags, the meanings and one step can do, once, for the proofs to cite. -/

namespace Sys2Proof.Machine

/-- A clear `flags.M` is the 8-bit width (10_state.md R20). -/
theorem State.widthA_of_clear {s : State} (h : s.flag .m = false) : s.widthA = .w8 := by
  simp [State.widthA, h, widthOf]

/-- A set `flags.M` is the 16-bit width (R20). -/
theorem State.widthA_of_set {s : State} (h : s.flag .m = true) : s.widthA = .w16 := by
  simp [State.widthA, h, widthOf]

/-- Setting the no-IRQ flag, seen flag by flag. -/
theorem State.flag_setFlag_i (s : State) (f : Flag) : (s.setFlag .i).flag f = (decide (f = .i) || s.flag f) := by
  cases f <;> simp [State.flag, State.setFlag, Flag.mask, Flag.bit]

/-- The three bytes a fetch looks at. -/
theorem State.codeBytes_three (s : State) :
    s.codeBytes 3 = [s.busRead s.pb s.pc, s.busRead s.pb (s.pc + 1), s.busRead s.pb (s.pc + 1 + 1)] := rfl

/-- The first bytes of a longer look are the shorter look. -/
theorem State.codeBytes_take (s : State) (n m : Nat) (h : n ≤ m) : (s.codeBytes m).take n = s.codeBytes n := by
  induction n generalizing s m with
  | zero => simp [State.codeBytes]
  | succ n ih =>
    obtain ⟨m, rfl⟩ : ∃ k, m = k + 1 := ⟨m - 1, by omega⟩
    simp [State.codeBytes, ih _ m (by omega)]

/-- No instruction is longer than three bytes (30_encoding.md R75). -/
theorem instr_length_le_three (i : Instr) : i.length ≤ 3 := by
  cases i with
  | ldaImm v => cases v <;> simp [Instr.length, encode, Instr.operandBytes, Value.bytes]
  | _ => simp [Instr.length, encode, Instr.operandBytes]

/-- A step of a halted core. -/
theorem step_halted {s : State} {f : Fault} (h : s.halt = .halted f) : step s = .next s := by
  simp [step, h]

/-- A step of a running core whose bytes decode. -/
theorem step_of_decode {s : State} {i : Instr} {rest : List Byte} (hr : s.halt = .running)
    (h : decode s.widthA (s.codeBytes 3) = .ok (i, rest)) : step s = exec i (s.advance i.length) := by
  simp only [step, hr, State.fetchInstr, h]

/-- A step of a running core whose bytes do not decode. -/
theorem step_of_error {s : State} {e : DecodeError} (hr : s.halt = .running)
    (h : decode s.widthA (s.codeBytes 3) = .error e) : step s = .next s.unimplementedOpcode := by
  simp only [step, hr, State.fetchInstr, h]

/-- The meanings as plain updates. -/
theorem exec_sei (s : State) : exec .sei s = .next (s.setFlag .i) := rfl

theorem exec_braDisp (d : Byte) (s : State) : exec (.braDisp d) s = .next (s.branchIf true d) := rfl

theorem exec_ldaImm (v : Value) (s : State) : exec (.ldaImm v) s = .next (s.setReg .a v) := rfl

theorem exec_ldaAddr (addr : Word) (s : State) :
    exec (.ldaAddr addr) s = .next (s.setReg .a (s.readValue s.widthA s.db addr)) := rfl

theorem exec_stzAddr (addr : Word) (s : State) :
    exec (.stzAddr addr) s = .next (s.writeValue s.db addr (zeroValue s.widthA)).settle := rfl

/-- STZ changes RAM, the Mapper and `halt` only (42_load_store.md R117). -/
theorem exec_stzAddr_same {s t : State} {addr : Word} (h : exec (.stzAddr addr) s = .next t) :
    t = { s with ram := t.ram, mapper := t.mapper, halt := t.halt } ∧ t.ram.fill = s.ram.fill := by
  have hs := s.writeValue_same s.db addr (zeroValue s.widthA)
  rw [exec_stzAddr] at h
  cases h
  rw [Access.settle_eq, hs.eq]
  exact ⟨rfl, hs.fill⟩

/-- The byte a step dispatches on. -/
def State.nextOpcode (s : State) : Byte := s.busRead s.pb s.pc

/-- The 16-bit operand after it. -/
def State.nextOperand (s : State) : Word := cat16 (s.busRead s.pb (s.pc + 1 + 1)) (s.busRead s.pb (s.pc + 1))

/-- Everything one step can do: nothing after a halt; one of the five instructions with `pc` past its bytes; or the
unimplemented opcode (45_step_loop.md R135). -/
theorem step_cases (s : State) :
    (∃ f, s.halt = .halted f ∧ step s = .next s) ∨
    (s.halt = .running ∧ s.nextOpcode = Config.opcSei ∧ step s = exec .sei (s.advance 1)) ∨
    (s.halt = .running ∧ s.nextOpcode = Config.opcBra ∧
      step s = exec (.braDisp (s.busRead s.pb (s.pc + 1))) (s.advance 2)) ∨
    (s.halt = .running ∧ s.nextOpcode = Config.opcStzAbs ∧ step s = exec (.stzAddr s.nextOperand) (s.advance 3)) ∨
    (s.halt = .running ∧ s.nextOpcode = Config.opcLdaImm ∧ s.widthA = .w8 ∧
      step s = exec (.ldaImm (.b8 (s.busRead s.pb (s.pc + 1)))) (s.advance 2)) ∨
    (s.halt = .running ∧ s.nextOpcode = Config.opcLdaImm ∧ s.widthA = .w16 ∧
      step s = exec (.ldaImm (.b16 s.nextOperand)) (s.advance 3)) ∨
    (s.halt = .running ∧ s.nextOpcode = Config.opcLdaAbs ∧ step s = exec (.ldaAddr s.nextOperand) (s.advance 3)) ∨
    (s.halt = .running ∧ Opcode.ofByte s.nextOpcode = none ∧ step s = .next s.unimplementedOpcode) := by
  cases hr : s.halt with
  | halted f => exact .inl ⟨f, rfl, step_halted hr⟩
  | running =>
    refine .inr ?_
    have hb := s.codeBytes_three
    cases ho : Opcode.ofByte (s.busRead s.pb s.pc) with
    | none =>
      refine .inr (.inr (.inr (.inr (.inr (.inr ⟨rfl, ho, step_of_error (e := .illegalOpcode (s.busRead s.pb s.pc)) hr ?_⟩)))))
      rw [hb, decode, ho]
    | some o =>
      have hop : s.nextOpcode = o.byte := Opcode.ofByte_some ho
      cases o with
      | sei =>
        refine .inl ⟨rfl, hop, step_of_decode (rest := [s.busRead s.pb (s.pc + 1), s.busRead s.pb (s.pc + 1 + 1)]) hr ?_⟩
        rw [hb, decode, ho]; rfl
      | bra =>
        refine .inr (.inl ⟨rfl, hop, step_of_decode (rest := [s.busRead s.pb (s.pc + 1 + 1)]) hr ?_⟩)
        rw [hb, decode, ho]; rfl
      | stzAbs =>
        refine .inr (.inr (.inl ⟨rfl, hop, step_of_decode (rest := []) hr ?_⟩))
        rw [hb, decode, ho]; rfl
      | ldaImm =>
        cases hw : s.widthA with
        | w8 =>
          refine .inr (.inr (.inr (.inl ⟨rfl, hop, rfl, step_of_decode (rest := [s.busRead s.pb (s.pc + 1 + 1)]) hr ?_⟩)))
          rw [hb, hw, decode, ho]; rfl
        | w16 =>
          refine .inr (.inr (.inr (.inr (.inl ⟨rfl, hop, rfl, step_of_decode (rest := []) hr ?_⟩))))
          rw [hb, hw, decode, ho]; rfl
      | ldaAbs =>
        refine .inr (.inr (.inr (.inr (.inr (.inl ⟨rfl, hop, step_of_decode (rest := []) hr ?_⟩)))))
        rw [hb, decode, ho]; rfl

/-- Every step answers a next state: no fault outcome, no refusal (log entry 1). -/
theorem step_next (s : State) : ∃ t, step s = .next t := by
  rcases step_cases s with ⟨_, -, h⟩ | ⟨-, -, h⟩ | ⟨-, -, h⟩ | ⟨-, -, h⟩ | ⟨-, -, -, h⟩ | ⟨-, -, -, h⟩ | ⟨-, -, h⟩ | ⟨-, -, h⟩ <;>
    exact ⟨_, h⟩

/-- One more step of a run. -/
theorem State.run_succ {s t : State} (h : step s = .next t) (n : Nat) : s.run (n + 1) = t.run n := by
  simp [State.run, h]

/-- The invariant holds right after reset. -/
theorem reset_inv : State.reset.Inv := by decide

end Sys2Proof.Machine
end

