-- ==== Sys2Proof/Tests/Slice0.lean ====
section
/-! SUPPORT. Tests with the spec's own vectors (95_test_vectors.md), and a witness for each statement that has hypotheses. -/

namespace Sys2Proof.Tests

open Sys2Proof.Machine

/-- The core of `State.reset` at offset 0x8000 of bank 0 with these flags, and these bytes there in the ROM (R178). -/
def at8000 (flags : Byte) (code : List Byte) : State :=
  { State.reset with pc := 0x8000, flags := flags }.pokeBytes 0x00 0x8000 code

/-- A field of the next state, to compare. -/
def after {α : Type} (o : Host.Outcome State Fault Refusal) (field : State → α) : Option α :=
  match o with
  | .next t => some (field t)
  | .fault _ => none
  | .refused _ => none

/-! ### WellFormed: the check refuses an ill-formed term -/

theorem test_wellFormed_refuses_imm16_at_8_bits : Instr.wellFormed .w8 (.ldaImm (.b16 0x8020)) = false := by decide

theorem test_wellFormed_refuses_imm8_at_16_bits : Instr.wellFormed .w16 (.ldaImm (.b8 0x20)) = false := by decide

/-! ### Decoding: words written out from 30_encoding.md R71 to R74 and R76 -/

theorem test_decode_sei : decode .w16 [0b01111000] = .ok (.sei, []) := rfl

theorem test_decode_bra : decode .w8 [0b10000000, 0b11111110, 0x00] = .ok (.braDisp 0xFE, [0x00]) := rfl

theorem test_decode_stz : decode .w8 [0b10011100, 0x10, 0x02] = .ok (.stzAddr 0x0210, []) := rfl

theorem test_decode_ldaImm_8 : decode .w8 [0b10101001, 0x20, 0x80] = .ok (.ldaImm (.b8 0x20), [0x80]) := rfl

theorem test_decode_ldaImm_16 : decode .w16 [0b10101001, 0x20, 0x80] = .ok (.ldaImm (.b16 0x8020), []) := rfl

theorem test_decode_ldaAbs : decode .w16 [0b10101101, 0x01, 0x20] = .ok (.ldaAddr 0x2001, []) := rfl

theorem test_decode_refuses_nop : decode .w8 [0xEA, 0, 0] = .error (.illegalOpcode 0xEA) := rfl

theorem test_decodeTableWord_reads_the_first_byte_lowest :
    decodeTableWord 24 0x12349C = some (.stzAddr 0x1234) ∧ decodeTableWord 8 0x0000AD = some (.ldaAddr 0) := by decide

/-! ### One step (95_test_vectors.md, the section in each comment) -/

/-- 2.8: flags 0xE3 becomes 0xE7. -/
theorem test_sei_keeps_other_flags :
    after (step (at8000 0xE3 [0x78])) (fun t => (t.flags, t.pc)) = some (0xE7, 0x8001) := by decide

/-- 2.9: at 0x0000 in RAM, `80 80` reaches 0xFF82. -/
theorem test_bra_wraps_backwards :
    after (step ({ State.reset with pc := 0 }.pokeBytes 0 0 [0x80, 0x80])) (fun t => (t.pc, t.pb)) = some (0xFF82, 0) := by
  decide

/-- 2.9: opcode at 0xFFFF (ROM), displacement 0x10 at 0x0000 (RAM), target 0x0011. -/
theorem test_bra_fetches_across_the_wrap :
    after (step ({ State.reset with pc := 0xFFFF }.pokeBytes 0 0xFFFF [0x80, 0x10])) (·.pc) = some 0x0011 := by decide

/-- S3: `A9 20` with a = 0x1234 gives 0x1220. -/
theorem test_ldaImm_8_keeps_the_high_byte :
    after (step { at8000 0x04 [0xA9, 0x20] with a := 0x1234 }) (fun t => (t.a, t.pc, t.flags)) =
      some (0x1220, 0x8002, 0x04) := by decide

/-- 2.5: `A9 20 80` at 16 bits gives 0x8020. -/
theorem test_ldaImm_16_low_byte_first :
    after (step { at8000 0x24 [0xA9, 0x20, 0x80] with a := 0x1234 }) (fun t => (t.a, t.pc)) = some (0x8020, 0x8003) := by
  decide

/-- 2.6: `AD FF FF` at 16 bits, db = 0x7E, RAM[0xFFFF] = 0x34, RAM[0] = 0x12 gives 0x1234. -/
theorem test_ldaAbs_16_wraps_in_its_bank :
    after (step { (at8000 0x24 [0xAD, 0xFF, 0xFF]).pokeBytes 0x7E 0xFFFF [0x34, 0x12] with db := 0x7E }) (·.a) =
      some 0x1234 := by decide

/-- 2.6: `AD 05 00` at 8 bits, db = 0x7F, RAM[0x10005] = 0x99 gives 0x0099. -/
theorem test_ldaAbs_8_reads_high_ram :
    after (step { (at8000 0x04 [0xAD, 0x05, 0x00]).poke 0x7F 0x0005 0x99 with db := 0x7F }) (·.a) = some 0x0099 := by
  decide

/-- 2.7: `9C FF FF` at 16 bits, db = 0x7F: RAM[0x1FFFF] and RAM[0x10000] become 0, RAM[0] stays. -/
theorem test_stz_16_wraps_in_its_bank :
    after (step { at8000 0x24 [0x9C, 0xFF, 0xFF] with db := 0x7F })
      (fun t => (t.ram.read 0x1FFFF, t.ram.read 0x10000, t.ram.read 0, t.pc)) = some (0, 0, 0x55, 0x8003) := by decide

/-- 2.7: `9C FF 1F` at 16 bits, ROM-only: RAM[0x1FFF] becomes 0, then the core halts at (0x00, 0x2000). -/
theorem test_stz_16_halts_half_done :
    after (step (at8000 0x24 [0x9C, 0xFF, 0x1F])) (fun t => (t.ram.read 0x1FFF, t.halt, t.pc)) =
      some (0, .halted (.unsupportedMapperWrite 0x00 0x2000 0x00), 0x8003) := by decide

/-- 2.10: 0xEA halts the core with `pc` at the byte. -/
theorem test_nop_byte_halts :
    after (step (at8000 0x04 [0xEA])) (fun t => (t.halt, t.pc)) =
      some (.halted (.unimplementedInstruction 0x00 0x8000 0xEA), 0x8000) := by decide

/-- 2.11: a vector of 0x80 at 0xFFFD and 0x00 at 0xFFFC starts at 0x8000. -/
theorem test_construct_reads_the_vector :
    (State.construct 0xAA (.romOnly ⟨[(0xFFFC, 0x00), (0xFFFD, 0x80)], 0x11⟩)).pc = 0x8000 := by decide

/-- 2.1: the decode at its edges. -/
theorem test_busDecode_edges :
    busDecode 0x3F 0x1FFF = .ram 0x1FFF ∧ busDecode 0x3F 0x2000 = .mapper 0x3F 0x2000 ∧
    busDecode 0x40 0x0000 = .mapper 0x40 0x0000 ∧ busDecode 0x7D 0xFFFF = .mapper 0x7D 0xFFFF ∧
    busDecode 0x7E 0xFFFF = .ram 0xFFFF ∧ busDecode 0x7F 0x0000 = .ram 0x10000 ∧
    busDecode 0x7F 0xFFFF = .ram 0x1FFFF ∧ busDecode 0x80 0x0000 = .mapper 0x80 0x0000 := by decide

/-- 2.4: PC-relative with the predicate false consumes its byte and adds nothing. -/
theorem test_pcRelative_false : ({ at8000 0x04 [0x78, 0x80] with pc := 0x8001 }.pcRelative false).pc = 0x8002 := by decide

/-- 2.3: the widths of flags 0x14. -/
theorem test_widths_of_0x14 : (at8000 0x14 []).widthA = .w8 ∧ (at8000 0x14 []).widthXY = .w16 := by decide

/-- A table word placed after reset is the first instruction run (log entry 5). -/
theorem test_withFetchWord_runs_it :
    after (step (State.reset.withFetchWord 24 0x00109C)) (fun t => (t.ram.read 0x10, t.pc, t.halt)) =
      some (0x00, 0x0003, .running) := by decide

/-! ### Witnesses: each theorem meets all the hypotheses of the statement it is named after -/

/-- The windows of `wideWindow`. -/
def wide : List Window := [⟨0x402000, 0x40FFFF⟩, ⟨0x2000, 0x2000⟩, ⟨0xFFFF, 0xFFFF⟩]

/-- A cartridge of these cells that takes writes in `wide`. -/
def wideCart (cells : List Host.Cell) : Mapper := .saveRam ⟨cells, 0x11⟩ wide

/-- A cartridge of these cells that takes writes at 0x402000 only. -/
def oneByteCart (cells : List Host.Cell) : Mapper := .saveRam ⟨cells, 0x11⟩ [⟨0x402000, 0x402000⟩]

/-- A 16-bit core in bank 0x40 behind a cartridge whose declared window is exactly 0x402000. -/
def oneByteWindow : State :=
  { State.reset with flags := 0x24, db := 0x40, mapper := oneByteCart [] }

/-- The same with windows up to the end of bank 0x40, and at 0x002000 and 0x00FFFF. -/
def wideWindow : State := { State.reset with flags := 0x24, db := 0x40, mapper := wideCart [] }

theorem witness_DecodeOfEncodeIsTheInstruction :
    Instr.wellFormed .w8 (.ldaImm (.b8 0xFF)) = true ∧ Instr.wellFormed .w16 (.ldaImm (.b16 0xFFFF)) = true ∧
    Instr.wellFormed .w8 .sei = true ∧ Instr.wellFormed .w16 (.braDisp 0x80) = true ∧
    Instr.wellFormed .w8 (.stzAddr 0xFFFF) = true ∧ Instr.wellFormed .w16 (.ldaAddr 0x1FFF) = true := by decide

theorem witness_DecodedBytesAreTheEncoding : decode .w16 [0xA9, 0xFF, 0x80, 0x78] = .ok (.ldaImm (.b16 0x80FF), [0x78]) :=
  rfl

theorem witness_StepRunsTheDecodedInstruction :
    (at8000 0x24 [0xA9, 0x20, 0x80]).halt = .running ∧
    decode (at8000 0x24 [0xA9, 0x20, 0x80]).widthA ((at8000 0x24 [0xA9, 0x20, 0x80]).codeBytes 3) =
      .ok (.ldaImm (.b16 0x8020), []) := ⟨rfl, rfl⟩

theorem witness_StepRunsTheInstructionItsBytesEncode :
    (at8000 0x04 [0xA9, 0x20]).halt = .running ∧
    Instr.wellFormed (at8000 0x04 [0xA9, 0x20]).widthA (.ldaImm (.b8 0x20)) = true ∧
    (at8000 0x04 [0xA9, 0x20]).codeBytes (Instr.ldaImm (.b8 0x20)).length = encode (.ldaImm (.b8 0x20)) := by decide

/-- The bytes beside an accepted one: 0x77 and 0xAE. -/
theorem witness_UnimplementedOpcodeChangesOnlyHalt :
    ∀ b ∈ [(0x77 : Byte), 0xAE, 0x00, 0xFF],
      (at8000 0x04 [b]).halt = .running ∧
      (at8000 0x04 [b]).busRead (at8000 0x04 [b]).pb (at8000 0x04 [b]).pc ∉ [(0x78 : Byte), 0x80, 0x9C, 0xA9, 0xAD] := by
  decide

theorem witness_HaltedCoreDoesNothing :
    ((at8000 0x04 []).raise (.unimplementedInstruction 0 0x8000 0xEA)).halt =
      .halted (.unimplementedInstruction 0 0x8000 0xEA) := rfl

theorem witness_StepOfSeiSetsExactlyTheNoIrqFlag :
    (at8000 0xFB [0x78]).halt = .running ∧ (at8000 0xFB [0x78]).codeBytes 1 = [0x78] := by decide

theorem witness_StepOfBraAddsTheDisplacement :
    (at8000 0x04 [0x80, 0x80]).halt = .running ∧ (at8000 0x04 [0x80, 0x80]).codeBytes 2 = [0x80, 0x80] := by decide

theorem witness_StepOfLdaImmediateLoadsAccumulator :
    ((at8000 0xDF [0xA9, 0xFF]).halt = .running ∧ (at8000 0xDF [0xA9, 0xFF]).flag .m = false ∧
      (at8000 0xDF [0xA9, 0xFF]).codeBytes 2 = [0xA9, 0xFF]) ∧
    ((at8000 0x20 [0xA9, 0, 0xFF]).halt = .running ∧ (at8000 0x20 [0xA9, 0, 0xFF]).flag .m = true ∧
      (at8000 0x20 [0xA9, 0, 0xFF]).codeBytes 3 = [0xA9, 0, 0xFF]) := by decide

theorem witness_StepOfLdaAbsoluteLoadsFromDataBank :
    ∀ f ∈ [(0xDF : Byte), 0x20],
      (at8000 f [0xAD, 0xFF, 0xFF]).halt = .running ∧ (at8000 f [0xAD, 0xFF, 0xFF]).codeBytes 3 = [0xAD, 0xFF, 0xFF] ∧
      (at8000 f [0xAD, 0xFF, 0xFF]).flag .m = decide (f = 0x20) := by decide

theorem witness_StepOfStzWritesZeroes :
    ∀ f ∈ [(0xDF : Byte), 0x20],
      (at8000 f [0x9C, 0xFF, 0x1F]).halt = .running ∧ (at8000 f [0x9C, 0xFF, 0x1F]).codeBytes 3 = [0x9C, 0xFF, 0x1F] ∧
      (at8000 f [0x9C, 0xFF, 0x1F]).flag .m = decide (f = 0x20) := by decide

/-- Both width hypotheses, of this statement and of the completion of LDA absolute. -/
theorem witness_LdaImmediateCompletesAtBothWidths :
    (at8000 0xDF []).flag .m = false ∧ (at8000 0x20 []).flag .m = true := by decide

theorem witness_LdaAbsoluteCompletesAtBothWidths :
    (at8000 0x00 []).flag .m = false ∧ (at8000 0xFF []).flag .m = true := by decide

/-- The last mirrored offset at 8 bits; across the end of bank 0x7F at 16 bits. -/
theorem witness_StzIntoRamCompletes :
    ((at8000 0x04 []).flag .m = false ∧ busDecode (at8000 0x04 []).db 0x1FFF = .ram 0x1FFF) ∧
    ({ at8000 0x24 [] with db := 0x7F }.flag .m = true ∧ busDecode 0x7F 0xFFFF = .ram 0x1FFFF ∧
      busDecode 0x7F (0xFFFF + 1) = .ram 0x10000) := by decide

theorem witness_StzIntoAnAcceptingMapperCompletes :
    ({ oneByteWindow with flags := 0x04 }.flag .m = false ∧ busDecode 0x40 0x2000 = .mapper 0x40 0x2000 ∧
      oneByteWindow.mapper.write 0x40 0x2000 0 = some (oneByteCart [(0x402000, 0)])) ∧
    (wideWindow.flag .m = true ∧ busDecode 0x40 0xFFFE = .mapper 0x40 0xFFFE ∧
      wideWindow.mapper.write 0x40 0xFFFE 0 = some (wideCart [(0x40FFFE, 0)]) ∧
      busDecode 0x40 (0xFFFE + 1) = .mapper 0x40 (0xFFFE + 1) ∧
      (wideCart [(0x40FFFE, 0)]).write 0x40 (0xFFFE + 1) 0 = some (wideCart [(0x40FFFE, 0), (0x40FFFF, 0)])) ∧
    ({ wideWindow with db := 0x00 }.flag .m = true ∧ busDecode 0x00 0x1FFF = .ram 0x1FFF ∧
      busDecode 0x00 (0x1FFF + 1) = .mapper 0x00 (0x1FFF + 1) ∧
      wideWindow.mapper.write 0x00 (0x1FFF + 1) 0 = some (wideCart [(0x2000, 0)])) ∧
    (busDecode 0x00 0xFFFF = .mapper 0x00 0xFFFF ∧ busDecode 0x00 (0xFFFF + 1) = .ram 0 ∧
      wideWindow.mapper.write 0x00 0xFFFF 0 = some (wideCart [(0xFFFF, 0)])) := by decide

theorem witness_StzHaltsAtTheRefusedByte :
    (busDecode (at8000 0x24 []).db 0xFFFF = .mapper (at8000 0x24 []).db 0xFFFF ∧
      (at8000 0x24 []).mapper.write (at8000 0x24 []).db 0xFFFF 0 = none) ∧
    ((at8000 0x24 []).flag .m = true ∧ busDecode (at8000 0x24 []).db 0x1FFF = .ram 0x1FFF ∧
      busDecode (at8000 0x24 []).db (0x1FFF + 1) = .mapper (at8000 0x24 []).db (0x1FFF + 1) ∧
      (at8000 0x24 []).mapper.write (at8000 0x24 []).db (0x1FFF + 1) 0 = none) ∧
    (oneByteWindow.flag .m = true ∧ busDecode 0x40 0x2000 = .mapper 0x40 0x2000 ∧
      busDecode 0x40 (0x2000 + 1) = .mapper 0x40 (0x2000 + 1) ∧
      oneByteWindow.mapper.write 0x40 0x2000 0 = some (oneByteCart [(0x402000, 0)]) ∧
      (oneByteCart [(0x402000, 0)]).write 0x40 (0x2000 + 1) 0 = none) := by decide

theorem witness_InstructionsThatStoreNothingKeepTheRest :
    (∃ t, exec .sei (at8000 0x00 []) = .next t) ∧ (∃ t, exec (.braDisp 0x80) (at8000 0x00 []) = .next t) ∧
    (∃ t, exec (.ldaImm (.b8 0)) (at8000 0x00 []) = .next t) ∧ (∃ t, exec (.ldaAddr 0xFFFF) (at8000 0x20 []) = .next t) :=
  ⟨⟨_, rfl⟩, ⟨_, rfl⟩, ⟨_, rfl⟩, ⟨_, rfl⟩⟩

/-- A byte outside the store for each of the three ways the statement allows: in RAM; behind a plain-data cartridge; behind
a `custom` one when the store is all in RAM. -/
theorem witness_StzKeepsEveryOtherByteAndRegister :
    (∃ t, exec (.stzAddr 0x1FFF) (at8000 0x24 []) = .next t) ∧
    (busDecode 0x7E 0x2000 ≠ busDecode (at8000 0x24 []).db 0x1FFF ∧
      busDecode 0x7E 0x2000 ≠ busDecode (at8000 0x24 []).db (0x1FFF + 1) ∧ ∃ i, busDecode 0x7E 0x2000 = .ram i) ∧
    (busDecode 0x00 0x2001 ≠ busDecode (at8000 0x24 []).db (0x1FFF + 1) ∧
      ∀ data, (at8000 0x24 []).mapper ≠ .custom data) ∧
    (busDecode 0x00 0x2000 ≠ busDecode 0x00 0x1FFE ∧ (∃ i, busDecode 0x00 0x1FFE = .ram i) ∧
      ∃ j, busDecode 0x00 (0x1FFE + 1) = .ram j) :=
  ⟨⟨_, rfl⟩, ⟨by decide, by decide, _, rfl⟩, ⟨by decide, fun _ h => nomatch h⟩, by decide, ⟨_, rfl⟩, _, rfl⟩

theorem witness_StepKeepsTheInvariant :
    (at8000 0x24 [0x9C, 0xFF, 0x1F]).Inv ∧ ∃ t, step (at8000 0x24 [0x9C, 0xFF, 0x1F]) = .next t := ⟨by decide, _, rfl⟩

theorem witness_ConstructionMeetsTheInvariant :
    (0x01 : Byte) ≠ 0 ∧ (Mapper.romOnly ⟨[(0, 1), (0xFFFFFF, 2)], 0⟩).wf := by decide

/-- Also for the other statements about any step. -/
theorem witness_EachPieceOfStateIsWrittenOnlyAsListed :
    ∃ t, step { at8000 0x00 [0x78] with halt := .running } = .next t ∧ t.flags ≠ (0x00 : Byte) :=
  ⟨_, rfl, by decide⟩

theorem witness_AStepHaltsForOneOfTwoReasons :
    (∃ t f, (at8000 0x04 [0xEA]).halt = .running ∧ step (at8000 0x04 [0xEA]) = .next t ∧ t.halt = .halted f) ∧
    (∃ t f, (at8000 0x24 [0x9C, 0xFF, 0x1F]).halt = .running ∧ step (at8000 0x24 [0x9C, 0xFF, 0x1F]) = .next t ∧
      t.halt = .halted f) := ⟨⟨_, _, rfl, rfl, rfl⟩, _, _, rfl, rfl, rfl⟩

theorem witness_EightBitClassKeepsItsHighByte :
    (at8000 0x04 [0xA9, 0x20]).flag .m = false ∧ (at8000 0x04 [0xA9, 0x20]).flag .x = false ∧
    (Value.b8 0xFF).width = (at8000 0x04 [0xA9, 0x20]).widthA ∧ (Value.b8 0xFF).width = (at8000 0x04 [0xA9, 0x20]).widthXY ∧
    ∃ t, step (at8000 0x04 [0xA9, 0x20]) = .next t := ⟨by decide, by decide, by decide, by decide, _, rfl⟩

theorem witness_RomOnlyMapperNeverChanges :
    (∃ image, (at8000 0x04 [0x9C, 0x00, 0x80]).mapper = .romOnly image) ∧
    (∃ t, step (at8000 0x04 [0x9C, 0x00, 0x80]) = .next t) ∧ busDecode 0x00 0x8000 = .mapper 0x00 0x8000 :=
  ⟨⟨_, rfl⟩, ⟨_, rfl⟩, by decide⟩

theorem witness_IdleRegistersAreNeverRead : ∃ t, step (at8000 0x24 [0xAD, 0x00, 0x80]) = .next t := ⟨_, rfl⟩

theorem witness_FlagsOtherThanMAreNeverRead :
    (0x20 : Byte).getLsbD (Flag.bit .m) = (at8000 0xFF [0x78]).flag .m ∧ ∃ t, step (at8000 0xFF [0x78]) = .next t :=
  ⟨by decide, _, rfl⟩

/-- A pair at the edge of each case. -/
theorem witness_BusDecodeFollowsItsFourCases :
    (((0x3F : Byte).toNat ≤ 0x3F ∧ (0x1FFF : Word).toNat ≤ 0x1FFF)) ∧
    ¬ ((0x3F : Byte).toNat ≤ 0x3F ∧ (0x2000 : Word).toNat ≤ 0x1FFF) ∧
    ¬ ((0x40 : Byte).toNat ≤ 0x3F ∧ (0x0000 : Word).toNat ≤ 0x1FFF) ∧
    (0x3F : Byte) ≠ 0x7E ∧ (0x80 : Byte) ≠ 0x7F := by decide

theorem witness_BusTargetsAreTheMapsOwn :
    busDecode 0x7F 0xFFFF = .ram 0x1FFFF ∧ ((0x3F : Byte).toNat ≤ 0x3F ∧ (0x1FFF : Word).toNat ≤ 0x1FFF) ∧
    busDecode 0x7F 0x0000 = busDecode 0x7F 0x0000 ∧ busDecode 0x80 0x0000 = .mapper 0x80 0x0000 := by decide

/-- A RAM pair and a Mapper pair, at the edge. -/
theorem witness_BusReadAsksItsTarget :
    busDecode 0x00 0x1FFF = .ram 0x1FFF ∧ busDecode 0x00 0x2000 = .mapper 0x00 0x2000 := by decide

theorem witness_BusWriteChangesItsTargetOrRaises :
    busDecode 0x7E 0xFFFF = .ram 0xFFFF ∧ busDecode 0x40 0x2000 = .mapper 0x40 0x2000 ∧
    oneByteWindow.mapper.write 0x40 0x2000 0xFF = some (oneByteCart [(0x402000, 0xFF)]) ∧
    oneByteWindow.mapper.write 0x40 0x2001 0xFF = none := by decide

theorem witness_RamWriteThenReadRoundTrips :
    busDecode 0x3F 0x1FFF = .ram 0x1FFF ∧ busDecode 0x3F 0x2000 ≠ busDecode 0x3F 0x1FFF := by decide

theorem witness_SixteenBitAccessWrapsInsideItsBank :
    (∃ t, State.reset.busWrite 0x7E 0xFFFF ((0xBEEF : Word).extractLsb' 0 8) = .done t) ∧
    (∃ t f, State.reset.busWrite 0x00 0xFFFF ((0xBEEF : Word).extractLsb' 0 8) = .raised f t) :=
  ⟨⟨_, rfl⟩, _, _, rfl⟩

theorem witness_SixteenBitStoreIsSeenAtBothWidths :
    busDecode 0x7E 0xFFFF = .ram 0xFFFF ∧ busDecode 0x7E (0xFFFF + 1) = .ram 0 := by decide

/-- A store through bank 0x7E seen by a fetch in bank 0x00. -/
theorem witness_StoreIsSeenByTheNextFetch :
    busDecode 0x7E 0x1FFF = .ram 0x1FFF ∧
    busDecode { State.reset with pc := 0x1FFF }.pb { State.reset with pc := 0x1FFF }.pc = .ram 0x1FFF := by decide

theorem witness_CanonicalMemoriesWithEqualBytesAreEqual :
    (Memory.mk [(0, 1), (7, 0)] 0x55).wf 8 ∧
    ∀ i, i < 8 → (Memory.mk [(0, 1), (7, 0)] 0x55).read i = (Memory.mk [(0, 1), (7, 0)] 0x55).read i :=
  ⟨by decide, fun _ _ => rfl⟩

theorem witness_WidthFlagsSelectTheWidths :
    (at8000 0x10 []).flag .m = false ∧ (at8000 0x20 []).flag .m = true ∧ (at8000 0x20 []).flag .x = false ∧
    (at8000 0x10 []).flag .x = true := by decide

theorem witness_SetOverwritesOnlyTheWidth : Reg.x ≠ Reg.a := by decide

theorem witness_FetchAdvancesInsideItsBank : { State.reset with pc := 0xFFFF }.pc = 0xFFFF := rfl

theorem witness_AbsoluteValueReadsTheDataBank :
    ∃ addr : Word, addr = State.reset.busRead State.reset.pb (State.reset.pc + 1) ++
      State.reset.busRead State.reset.pb State.reset.pc := ⟨_, rfl⟩

theorem witness_ConstructionLeavesTheResetValues :
    ∃ s, s = State.construct 0x01 (.custom [0xFF]) := ⟨_, rfl⟩

theorem witness_GameTitleReadsTwentyOneBytes : 20 < 21 := by decide

theorem witness_SelfBranchIsAFixedPoint :
    (at8000 0x04 [0x80, 0xFE]).halt = .running ∧ (at8000 0x04 [0x80, 0xFE]).atSelfBranch :=
  ⟨rfl, by unfold State.atSelfBranch; decide⟩

end Sys2Proof.Tests
end

section
/-! PROOFS. 10_state.md: the widths the flags select (R20), and the high byte an 8-bit register class keeps (R21). -/

namespace Sys2Proof.Machine

/-! ### The width of the index class (R20), beside `State.widthA_of_clear` and `State.widthA_of_set` -/

theorem State.widthXY_of_clear {s : State} (h : s.flag .x = false) : s.widthXY = .w8 := by
  simp [State.widthXY, h, widthOf]

theorem State.widthXY_of_set {s : State} (h : s.flag .x = true) : s.widthXY = .w16 := by
  simp [State.widthXY, h, widthOf]

/-! ### Values and registers at a width (40_width_dispatch.md R92, R94, R95) -/

@[simp] theorem State.readValue_width (s : State) (w : Width) (k : Byte) (o : Word) :
    (s.readValue w k o).width = w := by
  cases w <;> rfl

/-- An 8-bit value is merged under the high byte that was there. -/
theorem hi8_mergeInto {v : Value} (hv : v.width = .w8) (old : Word) : hi8 (mergeInto old v) = hi8 old := by
  cases v with
  | b8 b => exact hi8_cat16 (hi8 old) b
  | b16 n => cases hv

@[simp] theorem State.reg_setReg_same (s : State) (r : Reg) (v : Value) :
    (s.setReg r v).reg r = mergeInto (s.reg r) v := by
  cases r <;> rfl

theorem State.hi8_reg_setReg {v : Value} (hv : v.width = .w8) (s : State) (r : Reg) :
    hi8 ((s.setReg r v).reg r) = hi8 (s.reg r) := by
  rw [State.reg_setReg_same, hi8_mergeInto hv]

theorem State.getReg_w8 (s : State) (r : Reg) : s.getReg .w8 r = .b8 (lo8 (s.reg r)) := rfl

/-! ### What one instruction, and one step, does to `a`, `x` and `y` -/

/-- `t` has the index registers of `s`, and its accumulator is that of `s` or a value of `width_A()` set over it. -/
def RegistersSetAtWidth (s t : State) : Prop :=
  t.x = s.x ∧ t.y = s.y ∧ (t.a = s.a ∨ ∃ v : Value, v.width = s.widthA ∧ t.a = mergeInto s.a v)

/-- Only the loads write a register, and they write `a` at `width_A()` (42_load_store.md R115, R116). -/
theorem exec_registers {i : Instr} {s t : State} (hwf : i.wellFormed s.widthA = true) (h : exec i s = .next t) :
    RegistersSetAtWidth s t := by
  cases i with
  | sei => cases h; exact ⟨rfl, rfl, .inl rfl⟩
  | braDisp disp => cases h; exact ⟨rfl, rfl, .inl rfl⟩
  | stzAddr addr => rw [(exec_stzAddr_same h).1]; exact ⟨rfl, rfl, .inl rfl⟩
  | ldaImm imm => cases h; exact ⟨rfl, rfl, .inr ⟨imm, of_decide_eq_true hwf, rfl⟩⟩
  | ldaAddr addr =>
    cases h
    exact ⟨rfl, rfl, .inr ⟨s.readValue s.widthA s.db addr, s.readValue_width .., rfl⟩⟩

/-- A step changes `halt` at most, or runs an instruction that exists at `width_A()` with `pc` past its bytes
(45_step_loop.md R135). -/
theorem step_onlyHalt_or_exec (s : State) :
    (∃ t, step s = .next t ∧ t = { s with halt := t.halt }) ∨
    ∃ i : Instr, i.wellFormed s.widthA = true ∧ step s = exec i (s.advance i.length) := by
  rcases step_cases s with ⟨_, -, halted⟩ | ⟨-, -, sei⟩ | ⟨-, -, bra⟩ | ⟨-, -, stz⟩ | ⟨-, -, hw, imm8⟩ |
    ⟨-, -, hw, imm16⟩ | ⟨-, -, lda⟩ | ⟨-, -, noRow⟩
  · exact .inl ⟨s, halted, rfl⟩
  · exact .inr ⟨_, rfl, sei⟩
  · exact .inr ⟨_, rfl, bra⟩
  · exact .inr ⟨_, rfl, stz⟩
  · exact .inr ⟨_, by rw [hw]; rfl, imm8⟩
  · exact .inr ⟨_, by rw [hw]; rfl, imm16⟩
  · exact .inr ⟨_, rfl, lda⟩
  · exact .inl ⟨s.unimplementedOpcode, noRow, rfl⟩

theorem step_registers {s t : State} (h : step s = .next t) : RegistersSetAtWidth s t := by
  rcases step_onlyHalt_or_exec s with ⟨u, hu, hs⟩ | ⟨i, hwf, hi⟩
  · cases hu.symm.trans h
    rw [hs]
    exact ⟨rfl, rfl, .inl rfl⟩
  · exact exec_registers (s := s.advance i.length) hwf (hi ▸ h)

/-- While `flags.M` is clear a step keeps the high byte of `a`. -/
theorem hi8_a_of_step {s t : State} (h : step s = .next t) (hm : s.flag .m = false) : hi8 t.a = hi8 s.a := by
  obtain ⟨-, -, ha | ⟨v, hv, ha⟩⟩ := step_registers h
  · rw [ha]
  · rw [ha, hi8_mergeInto (hv.trans (State.widthA_of_clear hm))]

end Sys2Proof.Machine

namespace Sys2Proof.Proofs

open Sys2Proof.Machine

/-- Settles O44: each class's width is read off its flag. -/
theorem widthFlagsSelectTheWidths : Obligations.WidthFlagsSelectTheWidths := fun _ =>
  ⟨State.widthA_of_clear, State.widthA_of_set, State.widthXY_of_clear, State.widthXY_of_set⟩

/-- Settles O29: a step writes no register but `a`, and writes it at the width M selects; an 8-bit set keeps the high
byte of whichever register it writes. -/
theorem eightBitClassKeepsItsHighByte : Obligations.EightBitClassKeepsItsHighByte := by
  refine ⟨fun s t h => ⟨hi8_a_of_step h, fun _ => ?index⟩, fun s v hm hv => ?setA, fun s v hx hv => ?setXY⟩
  case index =>
    obtain ⟨hx, hy, -⟩ := step_registers h
    rw [hx, hy]
    exact ⟨rfl, rfl⟩
  case setA =>
    rw [State.widthA_of_clear hm] at hv ⊢
    exact ⟨s.hi8_reg_setReg hv .a, s.getReg_w8 .a⟩
  case setXY =>
    rw [State.widthXY_of_clear hx] at hv ⊢
    exact ⟨s.hi8_reg_setReg hv .x, s.hi8_reg_setReg hv .y, s.getReg_w8 .x, s.getReg_w8 .y⟩

end Sys2Proof.Proofs
end

section
/-! PROOFS. 20_memory.md: the address decode (R41), bus reads and writes (R42, R43), and the ROM-only Mapper (R45). -/

namespace Sys2Proof.Machine

/-! ### The four cases of the address decode (R41) -/

theorem busDecode_lowRam {k : Byte} {o : Word} (h : k.toNat ≤ 0x3F ∧ o.toNat ≤ 0x1FFF) :
    busDecode k o = .ram o.toNat := if_pos h

theorem busDecode_bank7E (o : Word) : busDecode 0x7E o = .ram o.toNat := by
  have notLow : ¬ ((0x7E : Byte) ≤ Config.lowRamBankHi) := by decide
  exact (if_neg fun h => notLow h.1).trans (if_pos rfl)

theorem busDecode_bank7F (o : Word) : busDecode 0x7F o = .ram (Config.highBase + o.toNat) := by
  have notLow : ¬ ((0x7F : Byte) ≤ Config.lowRamBankHi) := by decide
  have not7E : (0x7F : Byte) ≠ Config.ramBankLow := by decide
  exact (if_neg fun h => notLow h.1).trans <| (if_neg not7E).trans <| if_pos rfl

theorem busDecode_mapper {k : Byte} {o : Word} (notLow : ¬ (k.toNat ≤ 0x3F ∧ o.toNat ≤ 0x1FFF)) (not7E : k ≠ 0x7E)
    (not7F : k ≠ 0x7F) : busDecode k o = .mapper k o :=
  (if_neg notLow).trans <| (if_neg not7E).trans <| if_neg not7F

/-! ### One bus write, from its target (R43) -/

theorem State.busWrite_ram {k : Byte} {o : Word} {i : Nat} (h : busDecode k o = .ram i) (s : State) (b : Byte) :
    s.busWrite k o b = .done { s with ram := s.ram.write i b } := by
  simp only [State.busWrite, h]

theorem State.busWrite_mapper_takes {s : State} {k k' : Byte} {o o' : Word} {b : Byte} {m : Mapper}
    (h : busDecode k o = .mapper k' o') (hm : s.mapper.write k' o' b = some m) :
    s.busWrite k o b = .done { s with mapper := m } := by
  simp only [State.busWrite, h, hm]

theorem State.busWrite_mapper_refuses {s : State} {k k' : Byte} {o o' : Word} {b : Byte}
    (h : busDecode k o = .mapper k' o') (hm : s.mapper.write k' o' b = none) :
    s.busWrite k o b = .raised (.unsupportedMapperWrite k' o' b) s := by
  simp only [State.busWrite, h, hm]

/-! ### A ROM-only Mapper through a write, a store, an instruction and a step (R45) -/

@[simp] theorem Mapper.write_romOnly (image : Memory) (k : Byte) (o : Word) (b : Byte) :
    (Mapper.romOnly image).write k o b = none := rfl

theorem State.busWrite_keeps_romOnly {s : State} {image : Memory} (h : s.mapper = .romOnly image) (k : Byte) (o : Word)
    (b : Byte) : (s.busWrite k o b).state.mapper = .romOnly image := by
  rcases s.busWrite_cases k o b with ⟨i, -, ram⟩ | ⟨m, -, taken, -⟩ | ⟨-, -, refused⟩
  · rw [ram]; exact h
  · rw [h] at taken; cases taken
  · rw [refused]; exact h

theorem State.writeValue_keeps_romOnly {s : State} {image : Memory} (h : s.mapper = .romOnly image) (k : Byte) (o : Word)
    (v : Value) : (s.writeValue k o v).state.mapper = .romOnly image := by
  cases v with
  | b8 b => exact State.busWrite_keeps_romOnly h k o b
  | b16 n =>
    have first := State.busWrite_keeps_romOnly h k o (lo8 n)
    rw [State.writeValue]
    rcases s.memWrite16_cases k o n with ⟨s', hb, hw⟩ | ⟨f, s', hb, hw⟩
    · rw [hb] at first
      rw [hw]
      exact State.busWrite_keeps_romOnly first k (o + 1) (hi8 n)
    · rw [hb] at first
      rw [hw]
      exact first

theorem exec_keeps_romOnly {i : Instr} {s t : State} {image : Memory} (hs : s.mapper = .romOnly image)
    (h : exec i s = .next t) : t.mapper = .romOnly image := by
  cases i with
  | stzAddr addr =>
    cases h
    rw [Access.settle_eq]
    exact State.writeValue_keeps_romOnly hs s.db addr (zeroValue s.widthA)
  | sei | braDisp | ldaImm | ldaAddr => cases h; exact hs

theorem step_keeps_romOnly {s t : State} {image : Memory} (hs : s.mapper = .romOnly image) (h : step s = .next t) :
    t.mapper = .romOnly image := by
  rcases step_onlyHalt_or_exec s with ⟨u, hu, onlyHalt⟩ | ⟨i, -, hi⟩
  · cases hu.symm.trans h
    rw [onlyHalt]
    exact hs
  · exact exec_keeps_romOnly (s := s.advance i.length) hs (hi ▸ h)

end Sys2Proof.Machine

namespace Sys2Proof.Proofs

open Sys2Proof.Machine

/-- Settles O33: the four cases of Decode, each its own lemma. -/
theorem busDecodeFollowsItsFourCases : Obligations.BusDecodeFollowsItsFourCases := fun _ o =>
  ⟨busDecode_lowRam, fun h => h ▸ busDecode_bank7E o, fun h => h ▸ busDecode_bank7F o, busDecode_mapper⟩

/-- Settles O35: a read of a RAM pair is the cell, a read of any other pair the Mapper's answer to the same pair. -/
theorem busReadAsksItsTarget : Obligations.BusReadAsksItsTarget := by
  refine fun s k o => ⟨fun i => State.busRead_ram, fun k' o' h => ?mapper⟩
  case mapper =>
    obtain ⟨rfl, rfl⟩ := busDecode_mapper_eq h
    exact State.busRead_mapper h

/-- Settles O36: the three outcomes of a bus write. -/
theorem busWriteChangesItsTargetOrRaises : Obligations.BusWriteChangesItsTargetOrRaises := fun s _ _ b =>
  ⟨fun _ h => State.busWrite_ram h s b,
    fun _ _ h => ⟨fun _ => State.busWrite_mapper_takes h, State.busWrite_mapper_refuses h⟩⟩

/-- Settles O30: only a store could change the Mapper, and a ROM-only Mapper refuses each of its bytes; what is read behind
an unchanged Mapper is unchanged. -/
theorem romOnlyMapperNeverChanges : Obligations.RomOnlyMapperNeverChanges := by
  refine ⟨Mapper.write_romOnly, fun s t image hs h => ?step⟩
  case step =>
    have kept : t.mapper = s.mapper := (step_keeps_romOnly hs h).trans hs.symm
    refine ⟨kept, fun k o hd => ?_⟩
    rw [State.busRead_mapper hd, State.busRead_mapper hd, kept]

end Sys2Proof.Proofs
end

section
/-! PROOFS. 40_width_dispatch.md: a register set at a width, and what it leaves (R95). -/

namespace Sys2Proof.Machine

/-! ### What a set value becomes over the old storage, by its width (R95) -/

theorem mergeInto_b8 (old : Word) (b : Byte) : mergeInto old (.b8 b) = old.extractLsb' 8 8 ++ b := rfl

theorem mergeInto_b16 (old n : Word) : mergeInto old (.b16 n) = n := rfl

/-! ### The frame of a register write, beside `State.reg_setReg_same` -/

theorem State.reg_putReg (s : State) (r r' : Reg) (n : Word) :
    (s.putReg r n).reg r' = if r' = r then n else s.reg r' := by
  cases r <;> cases r' <;> rfl

theorem State.reg_setReg_of_ne {r r' : Reg} (h : r' ≠ r) (s : State) (v : Value) : (s.setReg r v).reg r' = s.reg r' :=
  (s.reg_putReg r r' (mergeInto (s.reg r) v)).trans (if_neg h)

/-- The three registers of the width layer are all that a set can write. -/
theorem State.setReg_frame (s : State) (r : Reg) (v : Value) :
    s.setReg r v = { s with a := (s.setReg r v).a, x := (s.setReg r v).x, y := (s.setReg r v).y } := by
  cases r <;> rfl

end Sys2Proof.Machine

namespace Sys2Proof.Proofs

open Sys2Proof.Machine

/-- Settles O45: the register set holds its old storage merged with the value, by the value's width; the other two registers
and the rest of the state are framed. -/
theorem setOverwritesOnlyTheWidth : Obligations.SetOverwritesOnlyTheWidth := by
  refine fun s r => ⟨fun b => ?low, fun n => ?whole, fun v _ h => s.reg_setReg_of_ne h v, s.setReg_frame r⟩
  case low => rw [State.reg_setReg_same, mergeInto_b8]
  case whole => rw [State.reg_setReg_same, mergeInto_b16]

end Sys2Proof.Proofs
end

section
/-! PROOFS. 41_addressing_modes.md: what a fetch takes (R100, R101), the operand modes made of fetches (R102, R104), and
the two ways PC-relative ends (R105). -/

namespace Sys2Proof.Machine

/-! ### `advance` as an update of `pc`, beside its field lemmas -/

theorem State.advance_one (s : State) : s.advance 1 = { s with pc := s.pc + 1 } := rfl

theorem State.advance_two (s : State) : s.advance 2 = { s with pc := s.pc + 2 } := rfl

/-- The byte after 0xFFFF is at 0x0000 of the same bank (10_state.md R16). -/
theorem State.advance_one_of_pc_FFFF {s : State} (h : s.pc = 0xFFFF) : s.advance 1 = { s with pc := 0x0000 } := by
  have wrap : s.pc + 1 = 0x0000 := by rw [h]; decide
  rw [State.advance_one, wrap]

/-! ### What the fetches and the operand modes take, beside `State.fetch8_state` and `State.fetch16_state` -/

theorem State.fetch8_eq (s : State) : s.fetch8 = (s.busRead s.pb s.pc, s.advance 1) :=
  Prod.ext s.fetch8_byte s.fetch8_state

/-- The second fetch, one byte further in the same bank, gives the high byte (R101). -/
@[simp] theorem State.fetch16_word (s : State) :
    s.fetch16.1 = s.busRead s.pb (s.pc + 1) ++ s.busRead s.pb s.pc := rfl

theorem State.fetch16_eq (s : State) :
    s.fetch16 = (s.busRead s.pb (s.pc + 1) ++ s.busRead s.pb s.pc, s.advance 2) :=
  Prod.ext s.fetch16_word s.fetch16_state

theorem State.absoluteAddress_eq (s : State) : s.absoluteAddress = s.fetch16 := rfl

theorem State.immediate_w8 (s : State) : s.immediate .w8 = (.b8 s.fetch8.1, s.fetch8.2) := rfl

theorem State.immediate_w16 (s : State) : s.immediate .w16 = (.b16 s.fetch16.1, s.fetch16.2) := rfl

/-! ### PC-relative, beside `State.branchIf_false` (R105) -/

theorem State.branchIf_true (s : State) (d : Byte) : s.branchIf true d = { s with pc := s.pc + d.signExtend 16 } := rfl

/-- The byte is fetched before the predicate is looked at. -/
theorem State.pcRelative_eq (s : State) (p : Bool) :
    s.pcRelative p = (s.advance 1).branchIf p (s.busRead s.pb s.pc) := rfl

end Sys2Proof.Machine

namespace Sys2Proof.Proofs

open Sys2Proof.Machine

/-- Settles O47: the fetch is the byte at `(pb, pc)` and an advance by one, which wraps at 0xFFFF. -/
theorem fetchAdvancesInsideItsBank : Obligations.FetchAdvancesInsideItsBank := fun s =>
  ⟨s.fetch8_eq, fun h => s.fetch8_state.trans (State.advance_one_of_pc_FFFF h)⟩

/-- Settles O48: each mode is the fetches it is made of. -/
theorem operandFetchesTakeTheLowByteFirst : Obligations.OperandFetchesTakeTheLowByteFirst := by
  refine fun s => ⟨s.fetch16_eq, s.absoluteAddress_eq.trans s.fetch16_eq, ?imm8, ?imm16⟩
  case imm8 => rw [State.immediate_w8, State.fetch8_eq, State.advance_one]
  case imm16 => rw [State.immediate_w16, State.fetch16_eq, State.advance_two]

/-- Settles O50: past the byte the branch is taken, or is not and changes nothing. -/
theorem pcRelativeAddsOnlyWhenThePredicateHolds : Obligations.PcRelativeAddsOnlyWhenThePredicateHolds := by
  refine fun s => ⟨?taken, ?notTaken⟩
  case taken => rw [State.pcRelative_eq, State.branchIf_true, State.advance_one]
  case notTaken => rw [State.pcRelative_eq, State.branchIf_false, State.advance_one]

end Sys2Proof.Proofs
end

section
/-! PROOFS. 42_load_store.md: LDA immediate, from its bytes at `(pb, pc)` to the loaded accumulator (R115). -/

namespace Sys2Proof

/-- The round trip of the decoder over all instructions, from the per-instruction ones. -/
theorem decode_encode_append : ∀ i : Instr, Laws.RoundTrip.Statement i
  | .sei => Laws.RoundTrip.sei
  | .braDisp disp => Laws.RoundTrip.braDisp disp
  | .stzAddr addr => Laws.RoundTrip.stzAddr addr
  | .ldaImm imm => Laws.RoundTrip.ldaImm imm
  | .ldaAddr addr => Laws.RoundTrip.ldaAddr addr

/-- LDA immediate with an operand word, as its bytes stand in memory (R72). -/
theorem encode_ldaImm_b16 (hh ll : Byte) : encode (.ldaImm (.b16 (cat16 hh ll))) = [0xA9, ll, hh] := by
  show [0xA9, lo8 (cat16 hh ll), hi8 (cat16 hh ll)] = _
  rw [lo8_cat16, hi8_cat16]

end Sys2Proof

namespace Sys2Proof.Machine

/-- The decoder sees an instruction's own bytes and then whatever follows them in memory. -/
theorem State.decode_codeBytes {s : State} {i : Instr} (hwf : i.wellFormed s.widthA = true)
    (hb : s.codeBytes i.length = encode i) :
    decode s.widthA (s.codeBytes 3) = .ok (i, (s.codeBytes 3).drop i.length) := by
  have split : encode i ++ (s.codeBytes 3).drop i.length = s.codeBytes 3 := by
    rw [← hb, ← s.codeBytes_take i.length 3 (instr_length_le_three i), List.take_append_drop]
  simpa only [split] using decode_encode_append i s.widthA ((s.codeBytes 3).drop i.length) hwf

/-- A step from the bytes of an instruction that exists at `width_A()` (45_step_loop.md R135). -/
theorem step_of_codeBytes {s : State} {i : Instr} (hr : s.halt = .running) (hwf : i.wellFormed s.widthA = true)
    (hb : s.codeBytes i.length = encode i) : step s = exec i (s.advance i.length) :=
  step_of_decode hr (State.decode_codeBytes hwf hb)

/-- `a` is set by the rule of R95; no other field than `a` and `pc` is written, the flags among those kept. -/
theorem step_of_ldaImm_bytes {s : State} {v : Value} (hr : s.halt = .running) (hw : v.width = s.widthA)
    (hb : s.codeBytes (Instr.ldaImm v).length = encode (.ldaImm v)) :
    step s = .next { s with a := mergeInto s.a v, pc := s.pc + BitVec.ofNat 16 (Instr.ldaImm v).length } := by
  have exists_at_width : (Instr.ldaImm v).wellFormed s.widthA = true := decide_eq_true hw
  rw [step_of_codeBytes hr exists_at_width hb, exec_ldaImm]
  rfl

end Sys2Proof.Machine

namespace Sys2Proof.Proofs

open Sys2Proof.Machine

/-- Settles O13: at each width the bytes encode LDA immediate with a value of that width, which is merged into `a`. -/
theorem stepOfLdaImmediateLoadsAccumulator : Obligations.StepOfLdaImmediateLoadsAccumulator := by
  refine ⟨fun s nn hr hm hb => ?low, fun s ll hh hr hm hb => ?whole⟩
  case low => exact step_of_ldaImm_bytes (v := .b8 nn) hr (State.widthA_of_clear hm).symm hb
  case whole =>
    have bytes : s.codeBytes 3 = encode (.ldaImm (.b16 (cat16 hh ll))) := hb.trans (encode_ldaImm_b16 hh ll).symm
    exact step_of_ldaImm_bytes (v := .b16 (cat16 hh ll)) hr (State.widthA_of_set hm).symm bytes

end Sys2Proof.Proofs
end

section
/-! PROOFS. 43_flag_ops.md: SEI, from its byte at `(pb, pc)` to the flags it leaves (R125). -/

namespace Sys2Proof.Machine

/-! ### What SEI does to each flag, from `State.flag_setFlag_i` (R125) -/

theorem State.flag_i_setFlag_i (s : State) : (s.setFlag .i).flag .i = true := by
  simp [State.flag_setFlag_i]

theorem State.flag_setFlag_i_of_ne {f : Flag} (h : f ≠ .i) (s : State) : (s.setFlag .i).flag f = s.flag f := by
  simp [State.flag_setFlag_i, h]

/-- `pc` moves past the one byte and then the flag is set, at either width (45_step_loop.md R135). -/
theorem step_of_sei_byte {s : State} (hr : s.halt = .running) (hb : s.codeBytes 1 = [0x78]) :
    step s = .next ((s.advance 1).setFlag .i) := by
  have step_exec : step s = exec .sei (s.advance 1) := step_of_codeBytes (i := .sei) hr rfl hb
  rw [step_exec, exec_sei]

end Sys2Proof.Machine

namespace Sys2Proof.Proofs

open Sys2Proof.Machine

/-- Settles O11: the step is an advance by one and the setting of the no-IRQ flag; an advance keeps `flags`. -/
theorem stepOfSeiSetsExactlyTheNoIrqFlag : Obligations.StepOfSeiSetsExactlyTheNoIrqFlag := by
  refine fun s hr hb => ⟨(s.advance 1).setFlag .i, step_of_sei_byte hr hb, rfl, ?noIrq, fun f hf => ?others⟩
  case noIrq => exact (s.advance 1).flag_i_setFlag_i
  case others =>
    have kept : (s.advance 1).flag f = s.flag f := rfl
    exact (State.flag_setFlag_i_of_ne hf (s.advance 1)).trans kept

end Sys2Proof.Proofs
end

section
/-! PROOFS. 44_branch.md: BRA, from its two bytes at `(pb, pc)` to the `pc` it leaves (R130). -/

namespace Sys2Proof.Machine

/-- `pc` moves past both bytes before the displacement is added, at either width (45_step_loop.md R135). -/
theorem step_of_bra_bytes {s : State} {dd : Byte} (hr : s.halt = .running) (hb : s.codeBytes 2 = [0x80, dd]) :
    step s = .next ((s.advance 2).branchIf true dd) := by
  have step_exec : step s = exec (.braDisp dd) (s.advance 2) := step_of_codeBytes (i := .braDisp dd) hr rfl hb
  rw [step_exec, exec_braDisp]

end Sys2Proof.Machine

namespace Sys2Proof.Proofs

open Sys2Proof.Machine

/-- Settles O12: the step is an advance by two and a branch that is taken; each writes `pc` alone. -/
theorem stepOfBraAddsTheDisplacement : Obligations.StepOfBraAddsTheDisplacement := by
  intro s dd hr hb
  rw [step_of_bra_bytes hr hb, State.branchIf_true, State.advance_two]

end Sys2Proof.Proofs
end

section
/-! PROOFS. 30_encoding.md: the opcode map (R76, R77), the operands (R78), and decoder and encoder as each other's
converse (R70, R75). -/

namespace Sys2Proof

/-! ### The opcode map (R76, R77), beside `Opcode.ofByte_byte` and `Opcode.ofByte_some` -/

theorem Opcode.ofByte_eq_none_iff {b : Byte} :
    Opcode.ofByte b = none ↔ b ≠ 0x78 ∧ b ≠ 0x80 ∧ b ≠ 0x9C ∧ b ≠ 0xA9 ∧ b ≠ 0xAD := by
  constructor
  case mp =>
    intro noRow
    have notByte : ∀ o : Opcode, b ≠ o.byte := by
      rintro o rfl
      rw [Opcode.ofByte_byte] at noRow
      cases noRow
    exact ⟨notByte .sei, notByte .bra, notByte .stzAbs, notByte .ldaImm, notByte .ldaAbs⟩
  case mpr =>
    rintro ⟨h78, h80, h9C, hA9, hAD⟩
    cases ho : Opcode.ofByte b with
    | none => rfl
    | some o =>
      have row := Opcode.ofByte_some ho
      cases o with
      | sei => exact absurd row h78
      | bra => exact absurd row h80
      | stzAbs => exact absurd row h9C
      | ldaImm => exact absurd row hA9
      | ldaAbs => exact absurd row hAD

/-! ### The decoder behind its opcode byte (R78) -/

theorem decode_of_noRow {op : Byte} (h : Opcode.ofByte op = none) (w : Width) (rest : List Byte) :
    decode w (op :: rest) = .error (.illegalOpcode op) := by
  simp only [decode, h]

theorem decode_of_row {op : Byte} {o : Opcode} (h : Opcode.ofByte op = some o) (w : Width) (rest : List Byte) :
    decode w (op :: rest) = o.operand w rest := by
  simp only [decode, h]

/-- What follows an opcode of the map is never refused but for want of bytes. -/
theorem Opcode.operand_error {w : Width} {o : Opcode} {bytes : List Byte} {e : DecodeError}
    (h : o.operand w bytes = .error e) : e = .truncated := by
  match o, bytes with
  | .sei, _ => cases h
  | .bra, [] | .stzAbs, [] | .stzAbs, [_] | .ldaImm, [] | .ldaAbs, [] | .ldaAbs, [_] => cases h; rfl
  | .bra, _ :: _ | .stzAbs, _ :: _ :: _ | .ldaAbs, _ :: _ :: _ => cases h
  | .ldaImm, [_] => cases w <;> cases h; rfl
  | .ldaImm, _ :: _ :: _ => cases w <;> cases h

/-- The operand bytes of a 16-bit operand put together from two. -/
theorem bytes_cat16 (h l : Byte) : [lo8 (cat16 h l), hi8 (cat16 h l)] = [l, h] := by
  rw [lo8_cat16, hi8_cat16]

/-- The operand assembled is the instruction's own, low byte first, of the width it was assembled at. -/
theorem Opcode.operand_ok {w : Width} {o : Opcode} {bytes rest : List Byte} {i : Instr}
    (h : o.operand w bytes = .ok (i, rest)) :
    i.wellFormed w = true ∧ i.opcode = o ∧ bytes = i.operandBytes ++ rest := by
  match o, bytes with
  | .sei, _ => cases h; exact ⟨rfl, rfl, rfl⟩
  | .bra, b1 :: _ => cases h; exact ⟨rfl, rfl, rfl⟩
  | .stzAbs, b1 :: b2 :: _ => cases h; exact ⟨rfl, rfl, congrArg (· ++ rest) (bytes_cat16 b2 b1).symm⟩
  | .ldaImm, [b1] =>
    cases w with
    | w8 => cases h; exact ⟨rfl, rfl, rfl⟩
    | w16 => cases h
  | .ldaImm, b1 :: b2 :: _ =>
    cases w with
    | w8 => cases h; exact ⟨rfl, rfl, rfl⟩
    | w16 => cases h; exact ⟨rfl, rfl, congrArg (· ++ rest) (bytes_cat16 b2 b1).symm⟩
  | .ldaAbs, b1 :: b2 :: _ => cases h; exact ⟨rfl, rfl, congrArg (· ++ rest) (bytes_cat16 b2 b1).symm⟩

/-- What decodes exists at the width, and its encoding is what was decoded (R70, R75). -/
theorem decode_ok {w : Width} {bytes rest : List Byte} {i : Instr} (h : decode w bytes = .ok (i, rest)) :
    i.wellFormed w = true ∧ bytes = encode i ++ rest := by
  cases bytes with
  | nil => cases h
  | cons op tail =>
    cases ho : Opcode.ofByte op with
    | none => rw [decode_of_noRow ho] at h; cases h
    | some o =>
      rw [decode_of_row ho] at h
      obtain ⟨wf, hop, operand⟩ := Opcode.operand_ok h
      refine ⟨wf, ?_⟩
      rw [Opcode.ofByte_some ho, operand, ← hop]
      rfl

theorem decode_eq_illegalOpcode_iff {w : Width} {op : Byte} {rest : List Byte} :
    decode w (op :: rest) = .error (.illegalOpcode op) ↔ Opcode.ofByte op = none := by
  refine ⟨fun h => ?mp, fun h => decode_of_noRow h w rest⟩
  case mp =>
    cases ho : Opcode.ofByte op with
    | none => rfl
    | some o =>
      rw [decode_of_row ho] at h
      cases Opcode.operand_error h

/-- An immediate exists at its own width alone (R72, R79). -/
theorem wellFormed_ldaImm_iff {v : Value} {w : Width} : (Instr.ldaImm v).wellFormed w = true ↔ w = v.width :=
  decide_eq_true_iff.trans eq_comm

end Sys2Proof

namespace Sys2Proof.Proofs

/-- Settles O1: the round trip of each instruction, over all of them. -/
theorem decodeOfEncodeIsTheInstruction : Obligations.DecodeOfEncodeIsTheInstruction :=
  fun w i rest wf => decode_encode_append i w rest wf

/-- Settles O2: the opcode byte is the one the lookup found, the operand bytes are those of the operand assembled. -/
theorem decodedBytesAreTheEncoding : Obligations.DecodedBytesAreTheEncoding := fun _ _ _ _ => decode_ok

/-- Settles O3: a byte is refused as illegal exactly when the lookup finds no row, and the rows are the five bytes. -/
theorem illegalOpcodesAreExactlyTheOtherBytes : Obligations.IllegalOpcodesAreExactlyTheOtherBytes := fun _ _ _ =>
  decode_eq_illegalOpcode_iff.trans Opcode.ofByte_eq_none_iff

/-- Settles O4: a length is the opcode byte and the operand bytes of the format. -/
theorem lengthsAreThoseOfTheFormats : Obligations.LengthsAreThoseOfTheFormats :=
  ⟨rfl, fun _ => rfl, fun _ => ⟨rfl, fun _ => wellFormed_ldaImm_iff⟩, fun _ => ⟨rfl, fun _ => wellFormed_ldaImm_iff⟩,
    fun _ => rfl, fun _ => rfl⟩

/-- Settles O5: each word is the encoding of its instruction at the width it is read at. -/
theorem wordsOfTheSpecDecode : Obligations.WordsOfTheSpecDecode :=
  ⟨decode_encode_append .sei .w8 [] rfl, decode_encode_append (.braDisp 0xFE) .w8 [] rfl,
    decode_encode_append (.stzAddr 0x0210) .w8 [] rfl, decode_encode_append (.ldaImm (.b8 0x20)) .w8 [] rfl,
    decode_encode_append (.ldaImm (.b16 0x8020)) .w16 [] rfl, decode_encode_append (.ldaAddr 0x0001) .w16 [] rfl⟩

end Sys2Proof.Proofs
end

section
/-! PROOFS. 45_step_loop.md: one step against the spec's own pseudocode (R135), the unimplemented opcode (R137), and runs
of steps (R138, R140, R141). -/

namespace Sys2Proof.Machine

/-! ### The pseudocode, dispatched on the opcode (R135) -/

/-- What the pseudocode runs for an opcode of the map, entered past the opcode byte. -/
def State.pseudoMeaning (s : State) : Opcode → State
  | .sei => s.setFlag .i
  | .bra => s.pcRelative true
  | .stzAbs => s.pseudoStzAddr
  | .ldaImm => s.pseudoLdaImm
  | .ldaAbs => s.pseudoLdaAddr

theorem State.pseudoStep_of_halted {s : State} {f : Fault} (h : s.halt = .halted f) : s.pseudoStep = s := by
  simp only [State.pseudoStep, h]

theorem State.pseudoStep_of_row {s : State} {o : Opcode} (hr : s.halt = .running) (hop : s.nextOpcode = o.byte) :
    s.pseudoStep = (s.advance 1).pseudoMeaning o := by
  have fetched : s.fetch8.1 = o.byte := hop
  simp only [State.pseudoStep, hr, fetched, State.fetch8_state]
  cases o <;> rfl

/-- `pc` is put back before the fault is raised, so the state raised on is the one before the fetch (D10). -/
theorem State.pseudoStep_of_noRow {s : State} (hr : s.halt = .running) (hop : Opcode.ofByte s.nextOpcode = none) :
    s.pseudoStep = s.unimplementedOpcode := by
  obtain ⟨h78, h80, h9C, hA9, hAD⟩ := Opcode.ofByte_eq_none_iff.1 hop
  have fetched : s.fetch8.1 = s.nextOpcode := rfl
  simp only [State.pseudoStep, hr, fetched]
  exact (if_neg h78).trans <| (if_neg h80).trans <| (if_neg h9C).trans <| (if_neg hA9).trans <| if_neg hAD

/-! ### Each meaning of the pseudocode, operands fetched one by one, on the state past the whole instruction -/

theorem State.pseudoMeaning_bra (s : State) :
    (s.advance 1).pseudoMeaning .bra = (s.advance 2).branchIf true (s.busRead s.pb (s.pc + 1)) := by
  rw [State.pseudoMeaning, State.pcRelative_eq, State.advance_advance]
  rfl

theorem State.pseudoMeaning_stzAbs (s : State) :
    (s.advance 1).pseudoMeaning .stzAbs =
      ((s.advance 3).writeValue s.db s.nextOperand (zeroValue s.widthA)).settle := by
  rw [State.pseudoMeaning, State.pseudoStzAddr, State.absoluteAddress_eq, State.fetch16_eq, State.advance_advance]
  rfl

theorem State.pseudoMeaning_ldaImm_w8 {s : State} (hw : s.widthA = .w8) :
    (s.advance 1).pseudoMeaning .ldaImm = (s.advance 2).setReg .a (.b8 (s.busRead s.pb (s.pc + 1))) := by
  rw [State.pseudoMeaning, State.pseudoLdaImm, State.widthA_advance, hw, State.immediate_w8, State.fetch8_eq,
    State.advance_advance]
  rfl

theorem State.pseudoMeaning_ldaImm_w16 {s : State} (hw : s.widthA = .w16) :
    (s.advance 1).pseudoMeaning .ldaImm = (s.advance 3).setReg .a (.b16 s.nextOperand) := by
  rw [State.pseudoMeaning, State.pseudoLdaImm, State.widthA_advance, hw, State.immediate_w16, State.fetch16_eq,
    State.advance_advance]
  rfl

/-- Absolute (value) is the fetched offset, and the load from it (41_addressing_modes.md R103). -/
theorem State.absoluteValue_eq (s : State) (w : Width) :
    s.absoluteValue w =
      (s.readValue w s.db (s.busRead s.pb (s.pc + 1) ++ s.busRead s.pb s.pc), s.advance 2) := by
  rw [State.absoluteValue, State.absoluteAddress_eq, State.fetch16_eq]
  rfl

theorem State.pseudoMeaning_ldaAbs (s : State) :
    (s.advance 1).pseudoMeaning .ldaAbs = (s.advance 3).setReg .a (s.readValue s.widthA s.db s.nextOperand) := by
  rw [State.pseudoMeaning, State.pseudoLdaAddr, State.absoluteValue_eq, State.advance_advance]
  rfl

/-- The two orders, operands fetched when needed or decoded first, reach one state (log entry 7). -/
theorem step_eq_pseudoStep (s : State) : step s = .next s.pseudoStep := by
  rcases step_cases s with ⟨f, halted, h⟩ | ⟨hr, op, h⟩ | ⟨hr, op, h⟩ | ⟨hr, op, h⟩ | ⟨hr, op, hw, h⟩ |
    ⟨hr, op, hw, h⟩ | ⟨hr, op, h⟩ | ⟨hr, noRow, h⟩
  · rw [h, State.pseudoStep_of_halted halted]
  · rw [h, State.pseudoStep_of_row (o := .sei) hr op, exec_sei]
    rfl
  · rw [h, State.pseudoStep_of_row (o := .bra) hr op, exec_braDisp, State.pseudoMeaning_bra]
  · rw [h, State.pseudoStep_of_row (o := .stzAbs) hr op, exec_stzAddr, State.pseudoMeaning_stzAbs]
    rfl
  · rw [h, State.pseudoStep_of_row (o := .ldaImm) hr op, exec_ldaImm, State.pseudoMeaning_ldaImm_w8 hw]
  · rw [h, State.pseudoStep_of_row (o := .ldaImm) hr op, exec_ldaImm, State.pseudoMeaning_ldaImm_w16 hw]
  · rw [h, State.pseudoStep_of_row (o := .ldaAbs) hr op, exec_ldaAddr, State.pseudoMeaning_ldaAbs]
    rfl
  · rw [h, State.pseudoStep_of_noRow hr noRow]

/-! ### The unimplemented opcode (R137) -/

theorem step_of_noRow {s : State} (hr : s.halt = .running) (hop : Opcode.ofByte s.nextOpcode = none) :
    step s = .next s.unimplementedOpcode :=
  step_of_error hr (decode_of_noRow hop s.widthA _)

/-! ### Runs (R138), beside `step_next` and `State.run_succ` -/

theorem State.run_next (s : State) (n : Nat) : ∃ t, s.run n = .next t := by
  induction n generalizing s with
  | zero => exact ⟨s, rfl⟩
  | succ n ih =>
    obtain ⟨u, hu⟩ := step_next s
    rw [State.run_succ hu]
    exact ih u

/-- A run goes on from where a shorter one ended. -/
theorem State.run_add {s t : State} {m : Nat} (h : s.run m = .next t) (n : Nat) : s.run (m + n) = t.run n := by
  induction m generalizing s with
  | zero => cases h; rw [Nat.zero_add]
  | succ m ih =>
    obtain ⟨u, hu⟩ := step_next s
    rw [State.run_succ hu] at h
    rw [Nat.succ_add, State.run_succ hu, ih h]

theorem State.run_of_fixed {s : State} (h : step s = .next s) (n : Nat) : s.run n = .next s := by
  induction n with
  | zero => rfl
  | succ n ih => rw [State.run_succ h, ih]

/-! ### The self-branch (R141) -/

/-- The displacement 0xFE takes back the two bytes of the instruction (R130). -/
theorem step_of_atSelfBranch {s : State} (hr : s.halt = .running) (h : s.atSelfBranch) : step s = .next s := by
  have back : s.pc + 2 + (0xFE : Byte).signExtend 16 = s.pc := by
    rw [BitVec.add_assoc, show (2 : Word) + (0xFE : Byte).signExtend 16 = 0 from by decide, add_zero]
  rw [step_of_bra_bytes hr h, State.branchIf_true, State.advance_two, back]

end Sys2Proof.Machine

namespace Sys2Proof.Proofs

open Sys2Proof.Machine

/-- Settles O8: case by case of what a step can do, the pseudocode's arm ends in the same state. -/
theorem stepIsTheSpecsPseudocode : Obligations.StepIsTheSpecsPseudocode := step_eq_pseudoStep

/-- Settles O6: what decodes is well-formed, and the step is its meaning past its bytes. -/
theorem stepRunsTheDecodedInstruction : Obligations.StepRunsTheDecodedInstruction := fun _ _ _ hr h =>
  ⟨(decode_ok h).1, step_of_decode hr h⟩

/-- Settles O7: the encoding's bytes decode to the instruction, whatever stands behind them. -/
theorem stepRunsTheInstructionItsBytesEncode : Obligations.StepRunsTheInstructionItsBytesEncode := fun _ _ hr wf hb =>
  step_of_codeBytes hr wf hb

/-- Settles O9: a byte that is none of the five has no row, and the fault is raised on the state before the step. -/
theorem unimplementedOpcodeChangesOnlyHalt : Obligations.UnimplementedOpcodeChangesOnlyHalt :=
  fun _ hr h78 h80 h9C hA9 hAD => step_of_noRow hr (Opcode.ofByte_eq_none_iff.2 ⟨h78, h80, h9C, hA9, hAD⟩)

/-- Settles O10: a step of a halted core is a fixed point, so a run is. -/
theorem haltedCoreDoesNothing : Obligations.HaltedCoreDoesNothing := fun _ _ n halted =>
  State.run_of_fixed (step_halted halted) n

/-- Settles O54: a run ends somewhere, and a longer run goes on from there; a frame is such a run. -/
theorem groupingStepsIntoFramesChangesNothing : Obligations.GroupingStepsIntoFramesChangesNothing := by
  refine ⟨fun s m n => ?runs, fun s => ?frames⟩
  case runs =>
    obtain ⟨t, ht⟩ := s.run_next m
    exact ⟨t, ht, State.run_add ht n⟩
  case frames =>
    obtain ⟨t, ht⟩ := s.run_next Config.stepsPerFrame
    exact ⟨t, ht, rfl, (State.run_add ht Config.stepsPerFrame).symm⟩

/-- Settles O55: the self-branch is a fixed point of the step, so every run stays in the running state. -/
theorem selfBranchIsAFixedPoint : Obligations.SelfBranchIsAFixedPoint := by
  intro s n hr hb
  have run_stays : s.run n = .next s := State.run_of_fixed (step_of_atSelfBranch hr hb) n
  exact ⟨run_stays, s, run_stays, fun faulted => faulted hr⟩

end Sys2Proof.Proofs
end

section
/-! PROOFS. 10_state.md section 4: the canonical form of a memory is fixed by its bytes (log entry 9). -/

namespace Sys2Proof.Machine

/-- A listed cell is found. -/
theorem Memory.find_of_mem {l : List Host.Cell} (rising : l.Pairwise (fun p q => p.1 < q.1)) {i : Nat} {b : Byte}
    (h : (i, b) ∈ l) : Memory.find i l = some b := by
  induction l with
  | nil => cases h
  | cons c rest ih =>
    obtain ⟨above, rising_rest⟩ := List.pairwise_cons.1 rising
    rw [Memory.find]
    rcases List.mem_cons.1 h with rfl | later
    · exact if_pos rfl
    · have ne : c.1 ≠ i := Nat.ne_of_lt (above (i, b) later)
      rw [if_neg ne, ih rising_rest later]

/-- What is found is listed. -/
theorem Memory.mem_of_find {l : List Host.Cell} {i : Nat} {b : Byte} (h : Memory.find i l = some b) : (i, b) ∈ l := by
  induction l with
  | nil => cases h
  | cons c rest ih =>
    rw [Memory.find] at h
    split at h
    · rename_i here
      cases h
      exact here ▸ List.mem_cons_self
    · exact List.mem_cons_of_mem _ (ih h)

/-- In the canonical form the cells are exactly the bytes that are not the fill. -/
theorem Memory.mem_cells_iff {bound : Nat} {m : Memory} (h : m.wf bound) {i : Nat} {b : Byte} :
    (i, b) ∈ m.cells ↔ i < bound ∧ m.read i = b ∧ b ≠ m.fill := by
  obtain ⟨rising, cells⟩ := h
  constructor
  case mp =>
    intro listed
    obtain ⟨inside, notFill⟩ := cells (i, b) listed
    have read_b : m.read i = b := by rw [Memory.read, Memory.find_of_mem rising listed, Option.getD_some]
    exact ⟨inside, read_b, notFill⟩
  case mpr =>
    rintro ⟨-, rfl, notFill⟩
    rw [Memory.read] at notFill ⊢
    cases found : Memory.find i m.cells with
    | none => rw [found] at notFill; exact absurd rfl notFill
    | some b => exact Memory.mem_of_find found

/-- Rising lists with the same members are equal. -/
theorem Memory.cells_ext {l l' : List Host.Cell} (rising : l.Pairwise (fun p q => p.1 < q.1))
    (rising' : l'.Pairwise (fun p q => p.1 < q.1)) (same : ∀ c, c ∈ l ↔ c ∈ l') : l = l' := by
  have distinct {p q : Host.Cell} (lt : p.1 < q.1) : p ≠ q := fun eq => absurd lt (eq ▸ Nat.lt_irrefl p.1)
  have perm : l.Perm l' := (List.perm_ext_iff_of_nodup (rising.imp distinct) (rising'.imp distinct)).2 same
  exact perm.eq_of_pairwise (fun p q _ _ pq qp => absurd pq (Nat.lt_asymm qp)) rising rising'

end Sys2Proof.Machine

namespace Sys2Proof.Proofs

open Sys2Proof.Machine

/-- Settles O43: each memory lists the bytes below the bound that are not the fill, and lists them rising. -/
theorem canonicalMemoriesWithEqualBytesAreEqual : Obligations.CanonicalMemoriesWithEqualBytesAreEqual := by
  intro bound m m' wf wf' fill_eq read_eq
  have same_cell (i : Nat) (b : Byte) : (i, b) ∈ m.cells ↔ (i, b) ∈ m'.cells := by
    rw [Memory.mem_cells_iff wf, Memory.mem_cells_iff wf', fill_eq]
    exact and_congr_right fun inside => by rw [read_eq i inside]
  have cells_eq : m.cells = m'.cells := Memory.cells_ext wf.1 wf'.1 fun c => same_cell c.1 c.2
  cases m
  cases m'
  cases cells_eq
  cases fill_eq
  rfl

end Sys2Proof.Proofs
end

section
/-! PROOFS. 20_memory.md: what each pair reaches (R41, R51), a byte written and then read (R58, R59, R56), and the
16-bit accesses (R46, R47). -/

namespace Sys2Proof.Machine

/-! ### The targets of the address decode (R41) -/

/-- The four cases together, each with what puts a pair into it. -/
theorem busDecode_cases (k : Byte) (o : Word) :
    ((k.toNat ≤ 0x3F ∧ o.toNat ≤ 0x1FFF) ∧ busDecode k o = .ram o.toNat) ∨
    (k = 0x7E ∧ busDecode k o = .ram o.toNat) ∨
    (k = 0x7F ∧ busDecode k o = .ram (Config.highBase + o.toNat)) ∨
    ((¬ (k.toNat ≤ 0x3F ∧ o.toNat ≤ 0x1FFF) ∧ k ≠ 0x7E ∧ k ≠ 0x7F) ∧ busDecode k o = .mapper k o) := by
  by_cases low : k.toNat ≤ 0x3F ∧ o.toNat ≤ 0x1FFF
  · exact .inl ⟨low, busDecode_lowRam low⟩
  by_cases k7E : k = 0x7E
  · exact .inr (.inl ⟨k7E, k7E ▸ busDecode_bank7E o⟩)
  by_cases k7F : k = 0x7F
  · exact .inr (.inr (.inl ⟨k7F, k7F ▸ busDecode_bank7F o⟩))
  · exact .inr (.inr (.inr ⟨⟨low, k7E, k7F⟩, busDecode_mapper low k7E k7F⟩))

/-- The low 16 bits of a RAM index are the offset. -/
theorem busDecode_ram_mod {k : Byte} {o : Word} {i : Nat} (h : busDecode k o = .ram i) : i % 0x10000 = o.toNat := by
  have o_lt := o.isLt
  rcases busDecode_cases k o with ⟨-, low⟩ | ⟨-, bank7E⟩ | ⟨-, bank7F⟩ | ⟨-, mapper⟩
  · cases low.symm.trans h; omega
  · cases bank7E.symm.trans h; omega
  · cases bank7F.symm.trans h; rw [Config.highBase]; omega
  · cases mapper.symm.trans h

/-- The high region is reached from bank 0x7F only: every other RAM pair stays below it. -/
theorem eq_7F_of_busDecode_high {k : Byte} {o : Word} {n : Nat} (h : busDecode k o = .ram (Config.highBase + n)) :
    k = 0x7F := by
  have o_lt := o.isLt
  rcases busDecode_cases k o with ⟨-, low⟩ | ⟨-, bank7E⟩ | ⟨k7F, -⟩ | ⟨-, mapper⟩
  · have index := Target.ram.inj (low.symm.trans h); rw [Config.highBase] at index; omega
  · have index := Target.ram.inj (bank7E.symm.trans h); rw [Config.highBase] at index; omega
  · exact k7F
  · cases mapper.symm.trans h

theorem busDecode_bank7F_inj {o o' : Word} (h : busDecode 0x7F o = busDecode 0x7F o') : o = o' := by
  rw [busDecode_bank7F, busDecode_bank7F] at h
  exact BitVec.eq_of_toNat_eq (Nat.add_left_cancel (Target.ram.inj h))

theorem not_ram_of_busDecode_mapper {k k' : Byte} {o o' : Word} (h : busDecode k o = .mapper k' o') :
    k ≠ 0x7E ∧ k ≠ 0x7F ∧ ¬ (k.toNat ≤ 0x3F ∧ o.toNat ≤ 0x1FFF) := by
  rcases busDecode_cases k o with ⟨-, low⟩ | ⟨-, bank7E⟩ | ⟨-, bank7F⟩ | ⟨⟨notLow, not7E, not7F⟩, -⟩
  · cases low.symm.trans h
  · cases bank7E.symm.trans h
  · cases bank7F.symm.trans h
  · exact ⟨not7E, not7F, notLow⟩

/-! ### What a byte reads as after a write (R42, R43, R58) -/

/-- A RAM cell just written, read through any pair that decodes to it. -/
theorem State.busRead_ram_written {k : Byte} {o : Word} {i : Nat} (h : busDecode k o = .ram i) (s : State) (b : Byte) :
    { s with ram := s.ram.write i b }.busRead k o = b :=
  (State.busRead_ram h).trans (s.ram.read_write_same i b)

/-- A cartridge held as plain data reads as before at every pair but the one it took a write at. -/
theorem Mapper.read_write_other {m m' : Mapper} {k k' : Byte} {o o' : Word} {b : Byte}
    (plain : ∀ data, m ≠ .custom data) (h : m.write k o b = some m') (ne : ¬ (k' = k ∧ o' = o)) :
    m'.read k' o' = m.read k' o' := by
  cases m with
  | romOnly image => cases h
  | saveRam image windows =>
    rw [Mapper.write] at h
    split at h
    · cases h
      exact Memory.read_write_other image (fun same => ne (fullAddress_inj same)) b
    · cases h
  | custom data => exact absurd rfl (plain data)

/-- A cartridge held as plain data stays one. -/
theorem Mapper.write_plain {m m' : Mapper} {k : Byte} {o : Word} {b : Byte} (plain : ∀ data, m ≠ .custom data)
    (h : m.write k o b = some m') (data : List Byte) : m' ≠ .custom data := by
  cases m with
  | romOnly image => cases h
  | saveRam image windows =>
    rw [Mapper.write] at h
    split at h <;> cases h
    exact fun eq => nomatch eq
  | custom data => exact absurd rfl (plain data)

/-- What makes a write at `(k, o)` leave the byte at `(k', o')`, another target: the byte is in RAM, or the cartridge is
plain data, or the write is in RAM. (A `custom` Mapper answers a write as it likes, log entry 4.) -/
def State.HoldsAcross (s : State) (k' : Byte) (o' : Word) (k : Byte) (o : Word) : Prop :=
  (∃ i, busDecode k' o' = .ram i) ∨ (∀ data, s.mapper ≠ .custom data) ∨ ∃ i, busDecode k o = .ram i

/-- The frame of one bus write, byte by byte. -/
theorem State.busRead_busWrite_other {s : State} {k k' : Byte} {o o' : Word} (b : Byte)
    (ne : busDecode k' o' ≠ busDecode k o) (holds : s.HoldsAcross k' o' k o) :
    (s.busWrite k o b).state.busRead k' o' = s.busRead k' o' := by
  rcases s.busWrite_cases k o b with ⟨i, hd, hw⟩ | ⟨m, hd, hm, hw⟩ | ⟨-, -, hw⟩
  · rw [hw, Access.state]
    cases hd' : busDecode k' o' with
    | ram j =>
      have other : j ≠ i := fun same => ne (by rw [hd', hd, same])
      rw [State.busRead_ram hd', State.busRead_ram hd', Memory.read_write_other s.ram other]
    | mapper k₁ o₁ =>
      obtain ⟨rfl, rfl⟩ := busDecode_mapper_eq hd'
      rw [State.busRead_mapper hd', State.busRead_mapper hd']
  · rw [hw, Access.state]
    cases hd' : busDecode k' o' with
    | ram j => rw [State.busRead_ram hd', State.busRead_ram hd']
    | mapper k₁ o₁ =>
      obtain ⟨rfl, rfl⟩ := busDecode_mapper_eq hd'
      have other : ¬ (k₁ = k ∧ o₁ = o) := fun ⟨hk, ho⟩ => ne (by rw [hk, ho])
      rw [State.busRead_mapper hd', State.busRead_mapper hd']
      rcases holds with ⟨_, inRam⟩ | plain | ⟨_, inRam⟩
      · cases hd'.symm.trans inRam
      · exact Mapper.read_write_other plain hm other
      · cases hd.symm.trans inRam
  · rw [hw, Access.state]

/-! ### The 16-bit accesses (R46, R47) -/

theorem State.memRead16_eq (s : State) (k : Byte) (o : Word) :
    s.memRead16 k o = s.busRead k (o + 1) ++ s.busRead k o := rfl

theorem State.memWrite16_of_done {s t : State} {k : Byte} {o v : Word} (h : s.busWrite k o (lo8 v) = .done t) :
    s.memWrite16 k o v = t.busWrite k (o + 1) (hi8 v) := by
  rw [State.memWrite16, h]

theorem State.memWrite16_of_raised {s t : State} {k : Byte} {o v : Word} {f : Fault}
    (h : s.busWrite k o (lo8 v) = .raised f t) : s.memWrite16 k o v = .raised f t := by
  rw [State.memWrite16, h]

theorem State.memWrite16_ram {k : Byte} {o : Word} {i j : Nat} (hi : busDecode k o = .ram i)
    (hj : busDecode k (o + 1) = .ram j) (s : State) (v : Word) :
    s.memWrite16 k o v = .done { s with ram := (s.ram.write i (lo8 v)).write j (hi8 v) } := by
  rw [State.memWrite16_of_done (State.busWrite_ram hi s (lo8 v)), State.busWrite_ram hj]

/-- The two bytes of a 16-bit access in RAM are two cells. -/
theorem ne_of_busDecode_succ {k : Byte} {o : Word} {i j : Nat} (hi : busDecode k o = .ram i)
    (hj : busDecode k (o + 1) = .ram j) : i ≠ j := by
  rintro rfl
  have same : o.toNat = (o + 1).toNat := (busDecode_ram_mod hi).symm.trans (busDecode_ram_mod hj)
  bv_omega

/-- The high byte's write leaves the low byte. -/
theorem State.busRead_of_memWrite16_ram {s t : State} {k : Byte} {o v : Word} {i j : Nat} (hi : busDecode k o = .ram i)
    (hj : busDecode k (o + 1) = .ram j) (h : s.memWrite16 k o v = .done t) :
    t.busRead k o = lo8 v ∧ t.busRead k (o + 1) = hi8 v := by
  cases (State.memWrite16_ram hi hj s v).symm.trans h
  refine ⟨?low, ?high⟩
  case low => rw [State.busRead_ram hi, Memory.read_write_other _ (ne_of_busDecode_succ hi hj), Memory.read_write_same]
  case high => rw [State.busRead_ram hj, Memory.read_write_same]

end Sys2Proof.Machine

namespace Sys2Proof.Proofs

open Sys2Proof.Machine

/-- Settles O34: each clause is a fact of the four cases of the decode. -/
theorem busTargetsAreTheMapsOwn : Obligations.BusTargetsAreTheMapsOwn := by
  refine ⟨fun k o i => busDecode_ram_lt, fun k o hk ho => ?mirror, fun k o o' h => ?high, fun k o k' o' h => ?mapper⟩
  case mirror => rw [busDecode_lowRam ⟨hk, ho⟩, busDecode_bank7E]
  case high =>
    obtain rfl : k = 0x7F := eq_7F_of_busDecode_high (h.trans (busDecode_bank7F o'))
    exact ⟨rfl, busDecode_bank7F_inj h⟩
  case mapper =>
    obtain ⟨hk, ho⟩ := busDecode_mapper_eq h
    exact ⟨hk, ho, not_ram_of_busDecode_mapper h⟩

/-- Settles O37: taking a raised fault is `raise`, which writes `halt`. -/
theorem raiseWritesOnlyHalt : Obligations.RaiseWritesOnlyHalt := fun _ _ => rfl

/-- Settles O38: the write is of the RAM cell, which is read back; the frame of the write is every other target. -/
theorem ramWriteThenReadRoundTrips : Obligations.RamWriteThenReadRoundTrips := by
  intro s k o v i h
  have write := State.busWrite_ram h s v
  refine ⟨_, write, State.busRead_ram_written h s v, fun k' o' ne => ?frame⟩
  case frame =>
    have kept := State.busRead_busWrite_other v ne (s := s) (.inr (.inr ⟨i, h⟩))
    rwa [write] at kept

/-- Settles O39: bank 0x7F offset k decodes to the RAM index, so the write and the read are of that cell. -/
theorem highBankIsTheHighRegion : Obligations.HighBankIsTheHighRegion := fun s k v =>
  ⟨⟨_, State.busWrite_ram (busDecode_bank7F k) s v, s.ram.read_write_same _ v⟩,
    State.busRead_ram_written (busDecode_bank7F k) s v⟩

/-- Settles O40: the equations of the two accesses, the offset after 0xFFFF being 0x0000. -/
theorem sixteenBitAccessWrapsInsideItsBank : Obligations.SixteenBitAccessWrapsInsideItsBank := by
  have wrap : (0xFFFF : Word) + 1 = 0x0000 := by decide
  refine ⟨State.memRead16_eq, fun s k => ?wraps, fun _ _ _ _ _ => State.memWrite16_of_done,
    fun _ _ _ _ _ _ => State.memWrite16_of_raised⟩
  case wraps => rw [State.memRead16_eq, wrap]

/-- Settles O41: each byte of the store is read back, and the two together are the value. -/
theorem sixteenBitStoreIsSeenAtBothWidths : Obligations.SixteenBitStoreIsSeenAtBothWidths := by
  intro s k o v i j hi hj
  have write := State.memWrite16_ram hi hj s v
  obtain ⟨low, high⟩ := State.busRead_of_memWrite16_ram hi hj write
  refine ⟨_, write, ?whole, low, high⟩
  rw [State.memRead16_eq, low, high]
  exact cat16_hi8_lo8 v

/-- Settles O42: the fetch reads the cell just written; the write moves neither `pb` nor `pc`. -/
theorem storeIsSeenByTheNextFetch : Obligations.StoreIsSeenByTheNextFetch := fun s _ _ v _ h hpc =>
  ⟨_, State.busWrite_ram h s v, State.busRead_ram_written hpc s v⟩

end Sys2Proof.Proofs
end

section
/-! PROOFS. 40_width_dispatch.md and 41_addressing_modes.md: a get after a set (R94, R95), the memory primitives of each
width (R92, R93, R96), and Absolute (value) (R103). -/

namespace Sys2Proof.Machine

/-- A get at a value's own width, of storage the value was merged into. -/
theorem State.getReg_of_merged {s : State} {r : Reg} {old : Word} {v : Value} (h : s.reg r = mergeInto old v) :
    s.getReg v.width r = v := by
  cases v with
  | b8 b =>
    have low : lo8 (s.reg r) = b := by rw [h]; exact lo8_cat16 (hi8 old) b
    exact (s.getReg_w8 r).trans (congrArg Value.b8 low)
  | b16 n => exact congrArg Value.b16 h

theorem State.readValue_w8 (s : State) (k : Byte) (o : Word) : s.readValue .w8 k o = .b8 (s.busRead k o) := rfl

theorem State.readValue_w16 (s : State) (k : Byte) (o : Word) :
    s.readValue .w16 k o = .b16 (s.busRead k (o + 1) ++ s.busRead k o) := rfl

theorem State.writeValue_b8 (s : State) (k : Byte) (o : Word) (b : Byte) :
    s.writeValue k o (.b8 b) = s.busWrite k o b := rfl

theorem State.writeValue_b16 (s : State) (k : Byte) (o n : Word) :
    s.writeValue k o (.b16 n) = s.memWrite16 k o n := rfl

end Sys2Proof.Machine

namespace Sys2Proof.Proofs

open Sys2Proof.Machine

/-- Settles O46: after the set the register's storage is the old one with the value merged in. -/
theorem getAfterSetGivesTheValue : Obligations.GetAfterSetGivesTheValue := fun s r v =>
  State.getReg_of_merged (s.reg_setReg_same r v)

/-- Settles O49: the offset is fetched, then the value of each width is read at it. -/
theorem absoluteValueReadsTheDataBank : Obligations.AbsoluteValueReadsTheDataBank := by
  rintro s addr rfl
  refine ⟨?w8, ?w16⟩
  case w8 => rw [State.absoluteValue_eq, State.readValue_w8, State.advance_two]
  case w16 => rw [State.absoluteValue_eq, State.readValue_w16, State.advance_two]

/-- Settles O51: the equation of each primitive at each width. -/
theorem valueAccessesFollowTheirWidth : Obligations.ValueAccessesFollowTheirWidth := fun s k o =>
  ⟨s.readValue_w8 k o, s.readValue_w16 k o, s.writeValue_b8 k o, s.writeValue_b16 k o, rfl, rfl⟩

end Sys2Proof.Proofs
end

section
/-! PROOFS. 42_load_store.md, 43_flag_ops.md, 44_branch.md: where each meaning ends (R115, R116, R117, R125, R130), what
it leaves, and the steps of LDA absolute and STZ from their bytes. -/

namespace Sys2Proof

/-! ### LDA absolute and STZ as their bytes stand in memory (30_encoding.md R73) -/

theorem encode_ldaAddr (hh ll : Byte) : encode (.ldaAddr (cat16 hh ll)) = [0xAD, ll, hh] :=
  congrArg (0xAD :: ·) (bytes_cat16 hh ll)

theorem encode_stzAddr (hh ll : Byte) : encode (.stzAddr (cat16 hh ll)) = [0x9C, ll, hh] :=
  congrArg (0x9C :: ·) (bytes_cat16 hh ll)

end Sys2Proof

namespace Sys2Proof.Machine

/-! ### The loads at each width (R115, R116) -/

theorem State.setReg_a_b8 (s : State) (b : Byte) :
    s.setReg .a (.b8 b) = { s with a := s.a.extractLsb' 8 8 ++ b } := rfl

theorem State.setReg_a_b16 (s : State) (n : Word) : s.setReg .a (.b16 n) = { s with a := n } := rfl

theorem exec_ldaAddr_w8 {s : State} (hm : s.flag .m = false) (addr : Word) :
    exec (.ldaAddr addr) s = .next { s with a := s.a.extractLsb' 8 8 ++ s.busRead s.db addr } := by
  rw [exec_ldaAddr, State.widthA_of_clear hm, State.readValue_w8, State.setReg_a_b8]

theorem exec_ldaAddr_w16 {s : State} (hm : s.flag .m = true) (addr : Word) :
    exec (.ldaAddr addr) s = .next { s with a := s.busRead s.db (addr + 1) ++ s.busRead s.db addr } := by
  rw [exec_ldaAddr, State.widthA_of_set hm, State.readValue_w16, State.setReg_a_b16]

/-- A load writes `a` alone. -/
theorem State.setReg_a_frame (s : State) (v : Value) : s.setReg .a v = { s with a := (s.setReg .a v).a } := rfl

/-! ### STZ at each width: the zero byte's write, or both (R117) -/

theorem exec_stzAddr_w8 {s : State} {addr : Word} {x : Access} (hm : s.flag .m = false)
    (write : s.busWrite s.db addr 0 = x) : exec (.stzAddr addr) s = .next x.settle := by
  rw [exec_stzAddr, State.widthA_of_clear hm, zeroValue, State.writeValue_b8, write]

theorem exec_stzAddr_w16 {s : State} (hm : s.flag .m = true) (addr : Word) :
    exec (.stzAddr addr) s = .next (s.memWrite16 s.db addr 0).settle := by
  rw [exec_stzAddr, State.widthA_of_set hm, zeroValue, State.writeValue_b16]

/-- At 16 bits, the first byte having landed, the store ends as the second byte's write does. -/
theorem exec_stzAddr_of_done {s t : State} {addr : Word} {x : Access} (hm : s.flag .m = true)
    (first : s.busWrite s.db addr 0 = .done t) (second : t.busWrite s.db (addr + 1) 0 = x) :
    exec (.stzAddr addr) s = .next x.settle := by
  have both : s.memWrite16 s.db addr 0 = x := (State.memWrite16_of_done (v := 0) first).trans second
  rw [exec_stzAddr_w16 hm, both]

/-- At either width, the first byte refused: the second is not written. -/
theorem exec_stzAddr_of_raised {s t : State} {addr : Word} {f : Fault} (first : s.busWrite s.db addr 0 = .raised f t) :
    exec (.stzAddr addr) s = .next (t.raise f) := by
  cases hm : s.flag .m with
  | false => rw [exec_stzAddr_w8 hm first, Access.settle]
  | true => rw [exec_stzAddr_w16 hm, State.memWrite16_of_raised (v := 0) first, Access.settle]

/-! ### What STZ leaves of memory -/

/-- A cartridge held as plain data is one after a write too. -/
theorem State.HoldsAcross.of_done {s t : State} {k k' k₁ : Byte} {o o' o₁ : Word} {b : Byte}
    (holds : s.HoldsAcross k' o' k o) (write : s.busWrite k₁ o₁ b = .done t) : t.HoldsAcross k' o' k o := by
  refine Or.imp_right (Or.imp_left fun plain => ?_) holds
  rcases s.busWrite_cases k₁ o₁ b with ⟨i, -, ram⟩ | ⟨m, -, takes, mapper⟩ | ⟨-, -, refuses⟩
  · cases ram.symm.trans write; exact plain
  · cases mapper.symm.trans write; exact Mapper.write_plain plain takes
  · cases refuses.symm.trans write

/-- The frame of a 16-bit store, byte by byte. -/
theorem State.busRead_memWrite16_other {s : State} {k k' : Byte} {o o' : Word} (v : Word)
    (ne : busDecode k' o' ≠ busDecode k o) (ne_succ : busDecode k' o' ≠ busDecode k (o + 1))
    (holds : s.HoldsAcross k' o' k o) (holds_succ : s.HoldsAcross k' o' k (o + 1)) :
    (s.memWrite16 k o v).state.busRead k' o' = s.busRead k' o' := by
  have first_keeps := State.busRead_busWrite_other (lo8 v) ne holds
  rcases s.memWrite16_cases k o v with ⟨t, first, both⟩ | ⟨f, t, first, both⟩
  · rw [first] at first_keeps
    rw [both, State.busRead_busWrite_other (hi8 v) ne_succ (State.HoldsAcross.of_done holds_succ first)]
    exact first_keeps
  · rw [first] at first_keeps
    rw [both]
    exact first_keeps

/-- A fault taken changes nothing the bus reads. -/
theorem Access.busRead_settle (x : Access) (k : Byte) (o : Word) : x.settle.busRead k o = x.state.busRead k o := by
  cases x <;> rfl

/-! ### The steps of LDA absolute and STZ from their bytes (45_step_loop.md R135) -/

theorem step_of_ldaAddr_bytes {s : State} {ll hh : Byte} (hr : s.halt = .running)
    (hb : s.codeBytes 3 = [0xAD, ll, hh]) :
    step s = exec (.ldaAddr (cat16 hh ll)) (s.advance 3) :=
  step_of_codeBytes (i := .ldaAddr (cat16 hh ll)) hr rfl (hb.trans (encode_ldaAddr hh ll).symm)

theorem step_of_stzAddr_bytes {s : State} {ll hh : Byte} (hr : s.halt = .running)
    (hb : s.codeBytes 3 = [0x9C, ll, hh]) :
    step s = exec (.stzAddr (cat16 hh ll)) (s.advance 3) :=
  step_of_codeBytes (i := .stzAddr (cat16 hh ll)) hr rfl (hb.trans (encode_stzAddr hh ll).symm)

end Sys2Proof.Machine

namespace Sys2Proof.Proofs

open Sys2Proof.Machine

/-- Settles O16: the mask of the no-IRQ flag is 0x04. -/
theorem seiCompletesSettingBitTwo : Obligations.SeiCompletesSettingBitTwo := fun s => exec_sei s

/-- Settles O17: the branch is always taken. -/
theorem braCompletesAddingTheDisplacement : Obligations.BraCompletesAddingTheDisplacement := fun s d =>
  (exec_braDisp d s).trans (congrArg Host.Outcome.next (s.branchIf_true d))

/-- Settles O18: the value is set in `a` at its own width. -/
theorem ldaImmediateCompletesAtBothWidths : Obligations.LdaImmediateCompletesAtBothWidths :=
  ⟨fun s v _ => (exec_ldaImm (.b8 v) s).trans (congrArg Host.Outcome.next (s.setReg_a_b8 v)),
    fun s v _ => (exec_ldaImm (.b16 v) s).trans (congrArg Host.Outcome.next (s.setReg_a_b16 v))⟩

/-- Settles O19: the load at each width. -/
theorem ldaAbsoluteCompletesAtBothWidths : Obligations.LdaAbsoluteCompletesAtBothWidths := fun _ addr =>
  ⟨fun hm => exec_ldaAddr_w8 hm addr, fun hm => exec_ldaAddr_w16 hm addr⟩

/-- Settles O14: the load at each width, on the state past the three bytes. -/
theorem stepOfLdaAbsoluteLoadsFromDataBank : Obligations.StepOfLdaAbsoluteLoadsFromDataBank := by
  intro s ll hh hr hb
  rw [step_of_ldaAddr_bytes hr hb]
  exact ⟨fun hm => exec_ldaAddr_w8 (s := s.advance 3) hm (cat16 hh ll),
    fun hm => exec_ldaAddr_w16 (s := s.advance 3) hm (cat16 hh ll)⟩

/-- Settles O15: how the first byte's write ends decides whether a second one follows, `pc` being past the bytes. -/
theorem stepOfStzWritesZeroes : Obligations.StepOfStzWritesZeroes := by
  intro s ll hh hr hb
  rw [step_of_stzAddr_bytes hr hb]
  cases first : { s with pc := s.pc + 3 }.busWrite s.db (hh ++ ll) 0 with
  | raised f t =>
    have halts : exec (.stzAddr (cat16 hh ll)) (s.advance 3) = .next (t.raise f) := exec_stzAddr_of_raised first
    exact ⟨fun _ => halts, fun _ => halts⟩
  | done t =>
    refine ⟨fun hm => ?oneByte, fun hm => ?twoBytes⟩
    case oneByte =>
      exact exec_stzAddr_w8 (s := s.advance 3) hm first
    case twoBytes =>
      dsimp only
      cases second : t.busWrite s.db ((hh ++ ll : Word) + 1) 0 with
      | done u => exact exec_stzAddr_of_done (s := s.advance 3) hm first second
      | raised f u => exact exec_stzAddr_of_done (s := s.advance 3) hm first second

/-- Settles O20: each byte's write is of its RAM cell. -/
theorem stzIntoRamCompletes : Obligations.StzIntoRamCompletes :=
  ⟨fun s _ _ hm hi => exec_stzAddr_w8 hm (State.busWrite_ram hi s 0),
    fun s _ _ _ hm hi hj => exec_stzAddr_of_done hm (State.busWrite_ram hi s 0) (State.busWrite_ram hj _ 0)⟩

/-- Settles O21: the first byte's write leaves the state that the second byte's write starts from. -/
theorem stzIntoAnAcceptingMapperCompletes : Obligations.StzIntoAnAcceptingMapperCompletes := by
  refine ⟨fun s addr m hm hd hw => ?mapper, fun s addr m m' hm hd hw hd' hw' => ?mapperMapper,
    fun s addr i m hm hd hd' hw' => ?ramMapper, fun s addr i m hm hd hw hd' => ?mapperRam⟩
  case mapper => exact exec_stzAddr_w8 hm (State.busWrite_mapper_takes hd hw)
  case mapperMapper =>
    exact exec_stzAddr_of_done hm (State.busWrite_mapper_takes hd hw) (State.busWrite_mapper_takes hd' hw')
  case ramMapper => exact exec_stzAddr_of_done hm (State.busWrite_ram hd s 0) (State.busWrite_mapper_takes hd' hw')
  case mapperRam => exact exec_stzAddr_of_done hm (State.busWrite_mapper_takes hd hw) (State.busWrite_ram hd' _ 0)

/-- Settles O22: the refused byte's write raises on the state it started from, which holds the first byte if it is the
second. -/
theorem stzHaltsAtTheRefusedByte : Obligations.StzHaltsAtTheRefusedByte := by
  refine ⟨fun s addr hd hw => ?first, fun s addr i hm hd hd' hw' => ?afterRam,
    fun s addr m hm hd hw hd' hw' => ?afterMapper⟩
  case first => exact exec_stzAddr_of_raised (State.busWrite_mapper_refuses hd hw)
  case afterRam => exact exec_stzAddr_of_done hm (State.busWrite_ram hd s 0) (State.busWrite_mapper_refuses hd' hw')
  case afterMapper =>
    exact exec_stzAddr_of_done hm (State.busWrite_mapper_takes hd hw) (State.busWrite_mapper_refuses hd' hw')

/-- Settles O23: each of the four meanings updates one field, and the bus reads neither `flags`, `pc` nor `a`. -/
theorem instructionsThatStoreNothingKeepTheRest : Obligations.InstructionsThatStoreNothingKeepTheRest := by
  refine fun s t => ⟨fun h => ?sei, fun d h => ?bra, fun v h => ?imm, fun addr h => ?abs⟩
  case sei =>
    cases (exec_sei s).symm.trans h
    exact ⟨rfl, fun f hf => State.flag_setFlag_i_of_ne hf s, fun _ _ => rfl⟩
  case bra =>
    cases (exec_braDisp d s).symm.trans h
    exact ⟨rfl, fun _ _ => rfl⟩
  case imm =>
    cases (exec_ldaImm v s).symm.trans h
    exact ⟨s.setReg_a_frame v, fun _ _ => rfl⟩
  case abs =>
    cases (exec_ldaAddr addr s).symm.trans h
    exact ⟨s.setReg_a_frame _, fun _ _ => rfl⟩

/-- Settles O24: the frame of the state, and byte by byte the frame of the one write or of the two. -/
theorem stzKeepsEveryOtherByteAndRegister : Obligations.StzKeepsEveryOtherByteAndRegister := by
  intro s t addr h
  obtain ⟨storage, fill⟩ := exec_stzAddr_same h
  refine ⟨storage, fill, fun k o ne ne_succ holds => ?byte⟩
  case byte =>
    cases hm : s.flag .m with
    | false =>
      cases (exec_stzAddr_w8 hm rfl).symm.trans h
      rw [Access.busRead_settle]
      exact State.busRead_busWrite_other 0 ne (holds.imp_right (Or.imp_right And.left))
    | true =>
      cases (exec_stzAddr_w16 hm addr).symm.trans h
      rw [Access.busRead_settle]
      exact State.busRead_memWrite16_other 0 ne (ne_succ hm) (holds.imp_right (Or.imp_right And.left))
        (holds.imp_right (Or.imp_right fun both => both.2 hm))

end Sys2Proof.Proofs
end

section
/-! PROOFS. 10_state.md section 7, 70_reset_and_hazards.md: the invariant of the plain data (R23, R24, R28), what a
construction leaves (R170, R171), and the title (R176). -/

namespace Sys2Proof.Machine

/-! ### The invariant through a meaning and a step -/

theorem exec_inv {i : Instr} {s t : State} (hs : s.Inv) (h : exec i s = .next t) : t.Inv := by
  cases i with
  | stzAddr addr =>
    have written := State.writeValue_inv hs s.db addr (zeroValue s.widthA)
    cases (exec_stzAddr addr s).symm.trans h
    rw [Access.settle_eq]
    exact written
  | sei | braDisp | ldaImm | ldaAddr => cases h; exact hs

theorem exec_fill {i : Instr} {s t : State} (h : exec i s = .next t) : t.ram.fill = s.ram.fill := by
  cases i with
  | stzAddr addr => exact (exec_stzAddr_same h).2
  | sei | braDisp | ldaImm | ldaAddr => cases h; rfl

theorem step_inv {s t : State} (hs : s.Inv) (h : step s = .next t) : t.Inv ∧ t.ram.fill = s.ram.fill := by
  rcases step_onlyHalt_or_exec s with ⟨u, hu, onlyHalt⟩ | ⟨i, -, hi⟩
  · cases hu.symm.trans h
    rw [onlyHalt]
    exact ⟨hs, rfl⟩
  · have meaning : exec i (s.advance i.length) = .next t := hi.symm.trans h
    exact ⟨exec_inv (s := s.advance i.length) hs meaning, exec_fill (s := s.advance i.length) meaning⟩

/-! ### Construction (R28, R170, R171) -/

theorem construct_inv {fill : Byte} {m : Mapper} (hfill : fill ≠ 0) (hm : m.wf) : (State.construct fill m).Inv :=
  ⟨Memory.wf_empty Config.ramSize fill, hfill, hm⟩

theorem readBus_mapper {k : Byte} {o : Word} (h : busDecode k o = .mapper k o) (ram : Memory) (m : Mapper) :
    readBus ram m k o = m.read k o := by
  simp only [readBus, h]

/-- The reset vector's two bytes are behind the Mapper. -/
theorem construct_pc (fill : Byte) (m : Mapper) :
    (State.construct fill m).pc = m.read 0x00 0xFFFD ++ m.read 0x00 0xFFFC := by
  have low : busDecode 0x00 0xFFFC = .mapper 0x00 0xFFFC := by decide
  have high : busDecode 0x00 0xFFFD = .mapper 0x00 0xFFFD := by decide
  have bytes : (State.construct fill m).pc = readBus ⟨[], fill⟩ m 0x00 0xFFFD ++ readBus ⟨[], fill⟩ m 0x00 0xFFFC := rfl
  rw [bytes, readBus_mapper low, readBus_mapper high]

/-! ### Consecutive bytes of the bus (R176) -/

theorem State.length_busReads (s : State) (k : Byte) (o : Word) (n : Nat) : (s.busReads k o n).length = n := by
  induction n generalizing o with
  | zero => rfl
  | succ n ih => rw [State.busReads, List.length_cons, ih]

theorem State.getElem?_busReads (s : State) (k : Byte) (o : Word) {i n : Nat} (h : i < n) :
    (s.busReads k o n)[i]? = some (s.busRead k (o + BitVec.ofNat 16 i)) := by
  induction n generalizing o i with
  | zero => cases h
  | succ n ih =>
    cases i with
    | zero => rw [State.busReads, List.getElem?_cons_zero, BitVec.add_zero]
    | succ i =>
      have offset : o + 1 + BitVec.ofNat 16 i = o + BitVec.ofNat 16 (i + 1) := by
        rw [BitVec.ofNat_add, BitVec.add_assoc, BitVec.add_comm 1]
        rfl
      rw [State.busReads, List.getElem?_cons_succ, ih (o + 1) (Nat.lt_of_succ_lt_succ h), offset]

end Sys2Proof.Machine

namespace Sys2Proof.Proofs

open Sys2Proof.Machine

/-- Settles O25: a step changes `halt` at most or runs a meaning; only STZ's stores touch the data, and they keep it
canonical. -/
theorem stepKeepsTheInvariant : Obligations.StepKeepsTheInvariant := fun _ _ => step_inv

/-- Settles O26: RAM with nothing listed is canonical; the cartridge is as it was handed over. -/
theorem constructionMeetsTheInvariant : Obligations.ConstructionMeetsTheInvariant :=
  ⟨reset_inv, fun _ _ => construct_inv⟩

/-- Settles O52: the fields of the construction, `pc` being read from the cartridge. -/
theorem constructionLeavesTheResetValues : Obligations.ConstructionLeavesTheResetValues := by
  refine ⟨?fields, ?reset⟩
  case fields =>
    rintro fill m s rfl
    exact ⟨rfl, rfl, rfl, rfl, rfl, rfl, rfl, rfl, construct_pc fill m, fun _ => rfl, rfl, rfl⟩
  case reset =>
    obtain ⟨-, fill_ne_zero, cartridge_wf⟩ := reset_inv
    exact ⟨State.reset.ram.fill, State.reset.mapper, fill_ne_zero, cartridge_wf, rfl⟩

/-- Settles O53: the title is 21 consecutive bytes of the bus. -/
theorem gameTitleReadsTwentyOneBytes : Obligations.GameTitleReadsTwentyOneBytes := fun s =>
  ⟨s.length_busReads Config.titleBank Config.titleOffset Config.titleLen,
    fun _ => s.getElem?_busReads Config.titleBank Config.titleOffset⟩

end Sys2Proof.Proofs
end

section
/-! PROOFS. 10_state.md section 6: what a step writes and what it reads (R27); 60_exceptions.md section 1: why it halts
(R150 to R155). -/

namespace Sys2Proof.Machine

/-! ### A step, by what its bytes decode to (45_step_loop.md R135) -/

/-- A step does nothing after a halt, raises the fault of an opcode with no row, or runs the instruction decoded. -/
theorem step_cases_decode (s : State) :
    (∃ f, s.halt = .halted f ∧ step s = .next s) ∨
    (s.halt = .running ∧ Opcode.ofByte s.nextOpcode = none ∧ step s = .next s.unimplementedOpcode) ∨
    (s.halt = .running ∧ ∃ i rest, decode s.widthA (s.codeBytes 3) = .ok (i, rest) ∧
      step s = exec i (s.advance i.length)) := by
  cases hr : s.halt with
  | halted f => exact .inl ⟨f, rfl, step_halted hr⟩
  | running =>
    cases hop : Opcode.ofByte s.nextOpcode with
    | none => exact .inr (.inl ⟨rfl, rfl, step_of_noRow hr hop⟩)
    | some o =>
      cases hd : decode s.widthA (s.codeBytes 3) with
      | ok decoded =>
        obtain ⟨i, rest⟩ := decoded
        exact .inr (.inr ⟨rfl, i, rest, rfl, step_of_decode hr hd⟩)
      | error e =>
        obtain rfl : e = .truncated := Opcode.operand_error ((decode_of_row hop _ _).symm.trans hd)
        exact absurd hd (decode_three_ne_truncated s.widthA _ _ _)

/-- The instruction decoded has the opcode fetched. -/
theorem State.nextOpcode_of_decode {s : State} {i : Instr} {rest : List Byte}
    (h : decode s.widthA (s.codeBytes 3) = .ok (i, rest)) : s.nextOpcode = i.opcode.byte :=
  (List.cons.inj (decode_ok h).2).1

/-- The address of a decoded STZ is the two bytes behind its opcode. -/
theorem State.operand_of_decode_stzAddr {s : State} {addr : Word} {rest : List Byte}
    (h : decode s.widthA (s.codeBytes 3) = .ok (.stzAddr addr, rest)) :
    addr = s.busRead s.pb (s.pc + 2) ++ s.busRead s.pb (s.pc + 1) := by
  obtain ⟨-, tail⟩ := List.cons.inj (decode_ok h).2
  obtain ⟨low, tail⟩ := List.cons.inj tail
  obtain ⟨high, -⟩ := List.cons.inj tail
  have two : s.pc + 1 + 1 = s.pc + 2 := BitVec.add_assoc ..
  change s.busRead s.pb (s.pc + 1) = lo8 addr at low
  change s.busRead s.pb (s.pc + 1 + 1) = hi8 addr at high
  rw [low, ← two, high]
  exact (cat16_hi8_lo8 addr).symm

/-! ### What a meaning writes (R27) -/

/-- No meaning writes `x`, `y`, `dp`, `sp`, `db` or `pb`. -/
theorem exec_frame {i : Instr} {s t : State} (h : exec i s = .next t) :
    t = { s with
      a := t.a, pc := t.pc, flags := t.flags, ram := t.ram, mapper := t.mapper, halt := t.halt } := by
  cases i with
  | stzAddr addr => rw [(exec_stzAddr_same h).1]
  | sei | braDisp | ldaImm | ldaAddr => cases h; rfl

theorem opcode_of_exec_a_ne {i : Instr} {s t : State} (h : exec i s = .next t) (ne : t.a ≠ s.a) :
    i.opcode = .ldaImm ∨ i.opcode = .ldaAbs := by
  cases i with
  | ldaImm imm => exact .inl rfl
  | ldaAddr addr => exact .inr rfl
  | stzAddr addr => rw [(exec_stzAddr_same h).1] at ne; exact absurd rfl ne
  | sei | braDisp => cases h; exact absurd rfl ne

theorem opcode_of_exec_storage_ne {i : Instr} {s t : State} (h : exec i s = .next t)
    (ne : t.ram ≠ s.ram ∨ t.mapper ≠ s.mapper) : i.opcode = .stzAbs := by
  cases i with
  | stzAddr addr => rfl
  | sei | braDisp | ldaImm | ldaAddr => cases h; exact ne.elim (absurd rfl) (absurd rfl)

/-- The flags an instruction leaves, over those it finds: SEI sets one, the others none. -/
def Instr.flagsAfter (i : Instr) (g : Byte) : Byte :=
  match i with
  | .sei => g ||| Flag.mask .i
  | _ => g

theorem exec_flags {i : Instr} {s t : State} (h : exec i s = .next t) : t.flags = Instr.flagsAfter i s.flags := by
  cases i with
  | stzAddr addr => rw [(exec_stzAddr_same h).1]; rfl
  | sei | braDisp | ldaImm | ldaAddr => cases h; rfl

/-- An update of the flags that can only set the no-IRQ flag. -/
structure SetsAtMostI (φ : Byte → Byte) : Prop where
  others : ∀ (g : Byte) (f : Flag), f ≠ .i → (φ g).getLsbD f.bit = g.getLsbD f.bit
  noIrq : ∀ g : Byte, g.getLsbD (Flag.bit .i) = true → (φ g).getLsbD (Flag.bit .i) = true

theorem setsAtMostI_id : SetsAtMostI id := ⟨fun _ _ _ => rfl, fun _ h => h⟩

/-- For SEI this is the law of `setFlag`, taken at a state with the flags in question. -/
theorem setsAtMostI_flagsAfter (i : Instr) : SetsAtMostI (Instr.flagsAfter i) := by
  cases i with
  | sei =>
    exact ⟨fun g _ hf => State.flag_setFlag_i_of_ne hf { State.reset with flags := g },
      fun g _ => State.flag_i_setFlag_i { State.reset with flags := g }⟩
  | braDisp | stzAddr | ldaImm | ldaAddr => exact setsAtMostI_id

/-! ### State that no step reads (R11 to R14, R19) -/

/-- Values for the registers no meaning reads, and for the flags. -/
structure Unread where
  x : Word
  y : Word
  dp : Word
  sp : Word
  flags : Byte

/-- The state with those values put into it. -/
def State.withUnread (s : State) (u : Unread) : State :=
  { s with x := u.x, y := u.y, dp := u.dp, sp := u.sp, flags := u.flags }

/-- An access with those values put into the state it ended in. -/
def Access.withUnread (acc : Access) (u : Unread) : Access :=
  match acc with
  | .done s => .done (s.withUnread u)
  | .raised f s => .raised f (s.withUnread u)

@[simp] theorem Access.settle_withUnread (acc : Access) (u : Unread) :
    (acc.withUnread u).settle = acc.settle.withUnread u := by
  cases acc <;> rfl

theorem State.busWrite_withUnread (s : State) (u : Unread) (k : Byte) (o : Word) (b : Byte) :
    (s.withUnread u).busWrite k o b = (s.busWrite k o b).withUnread u := by
  rcases s.busWrite_cases k o b with ⟨i, hd, hw⟩ | ⟨m, hd, hm, hw⟩ | ⟨hd, hm, hw⟩
  · rw [hw]; exact State.busWrite_ram hd _ b
  · rw [hw]; exact State.busWrite_mapper_takes (s := s.withUnread u) hd hm
  · rw [hw]; exact State.busWrite_mapper_refuses (s := s.withUnread u) hd hm

theorem State.memWrite16_withUnread (s : State) (u : Unread) (k : Byte) (o v : Word) :
    (s.withUnread u).memWrite16 k o v = (s.memWrite16 k o v).withUnread u := by
  have first := s.busWrite_withUnread u k o (lo8 v)
  rcases s.memWrite16_cases k o v with ⟨t, hb, hw⟩ | ⟨f, t, hb, hw⟩
  · rw [hb] at first
    rw [hw, State.memWrite16_of_done first, State.busWrite_withUnread]
  · rw [hb] at first
    rw [hw]
    exact State.memWrite16_of_raised first

theorem State.writeValue_withUnread (s : State) (u : Unread) (k : Byte) (o : Word) (v : Value) :
    (s.withUnread u).writeValue k o v = (s.writeValue k o v).withUnread u := by
  cases v with
  | b8 b => exact s.busWrite_withUnread u k o b
  | b16 n => exact s.memWrite16_withUnread u k o n

theorem State.codeBytes_withUnread (s : State) (u : Unread) (n : Nat) :
    (s.withUnread u).codeBytes n = s.codeBytes n := by
  induction n generalizing s with
  | zero => rfl
  | succ n ih => exact congrArg (s.busRead s.pb s.pc :: ·) (ih (s.advance 1))

section
variable {s : State} {u : Unread} (sameM : u.flags.getLsbD (Flag.bit .m) = s.flag .m)
include sameM

theorem State.widthA_withUnread : (s.withUnread u).widthA = s.widthA :=
  congrArg widthOf sameM

/-- A meaning reads none of them but M, and writes none of them but SEI's flag. -/
theorem exec_withUnread {t : State} {i : Instr} (h : exec i s = .next t) :
    exec i (s.withUnread u) = .next (t.withUnread { u with flags := Instr.flagsAfter i u.flags }) := by
  cases i with
  | stzAddr addr =>
    cases (exec_stzAddr addr s).symm.trans h
    rw [exec_stzAddr, State.widthA_withUnread sameM, State.writeValue_withUnread, Access.settle_withUnread]
    rfl
  | ldaAddr addr =>
    cases (exec_ldaAddr addr s).symm.trans h
    rw [exec_ldaAddr, State.widthA_withUnread sameM]
    rfl
  | sei | braDisp | ldaImm => cases h; rfl

theorem step_withUnread_of_decode {t : State} {i : Instr} {rest : List Byte} (hr : s.halt = .running)
    (hd : decode s.widthA (s.codeBytes 3) = .ok (i, rest)) (h : exec i (s.advance i.length) = .next t) :
    step (s.withUnread u) = .next (t.withUnread { u with flags := Instr.flagsAfter i u.flags }) := by
  have hd' : decode (s.withUnread u).widthA ((s.withUnread u).codeBytes 3) = .ok (i, rest) := by
    rw [State.widthA_withUnread sameM, State.codeBytes_withUnread, hd]
  exact (step_of_decode (s := s.withUnread u) hr hd').trans (exec_withUnread (s := s.advance i.length) sameM h)

end

/-- A step sets the no-IRQ flag at most, and does that and everything else without reading what is in `Unread` but M. -/
theorem step_withUnread {s t : State} (h : step s = .next t) :
    ∃ φ : Byte → Byte, SetsAtMostI φ ∧ t.flags = φ s.flags ∧
      ∀ u : Unread, u.flags.getLsbD (Flag.bit .m) = s.flag .m →
        step (s.withUnread u) = .next (t.withUnread { u with flags := φ u.flags }) := by
  rcases step_cases_decode s with ⟨f, halted, hs⟩ | ⟨hr, noRow, hs⟩ | ⟨hr, i, rest, hd, hs⟩
  · cases hs.symm.trans h
    exact ⟨id, setsAtMostI_id, rfl, fun u _ => step_halted (s := s.withUnread u) halted⟩
  · cases hs.symm.trans h
    exact ⟨id, setsAtMostI_id, rfl, fun u _ => step_of_noRow (s := s.withUnread u) hr noRow⟩
  · have meaning : exec i (s.advance i.length) = .next t := hs.symm.trans h
    exact ⟨Instr.flagsAfter i, setsAtMostI_flagsAfter i, exec_flags (s := s.advance i.length) meaning,
      fun u sameM => step_withUnread_of_decode sameM hr hd meaning⟩

/-! ### What a step writes (R27) -/

/-- A step changes `halt` at most, or ends as the instruction of the opcode fetched ends past its bytes. -/
theorem step_onlyHalt_or_opcode {s t : State} (h : step s = .next t) :
    (∃ halt, t = { s with halt := halt }) ∨
    ∃ i : Instr, s.nextOpcode = i.opcode.byte ∧ exec i (s.advance i.length) = .next t := by
  rcases step_cases_decode s with ⟨f, -, hs⟩ | ⟨-, -, hs⟩ | ⟨-, i, rest, hd, hs⟩
  · cases hs.symm.trans h; exact .inl ⟨_, rfl⟩
  · cases hs.symm.trans h; exact .inl ⟨_, rfl⟩
  · exact .inr ⟨i, State.nextOpcode_of_decode hd, hs.symm.trans h⟩

theorem step_frame {s t : State} (h : step s = .next t) :
    t = { s with
      a := t.a, pc := t.pc, flags := t.flags, ram := t.ram, mapper := t.mapper, halt := t.halt } := by
  rcases step_onlyHalt_or_opcode h with ⟨halt, rfl⟩ | ⟨i, -, meaning⟩
  · rfl
  · exact exec_frame (s := s.advance i.length) meaning

/-- No step writes a register but `a` and `pc`. -/
theorem step_keeps_registers {s t : State} (h : step s = .next t) :
    t.x = s.x ∧ t.y = s.y ∧ t.dp = s.dp ∧ t.sp = s.sp ∧ t.db = s.db ∧ t.pb = s.pb := by
  rw [step_frame h]
  exact ⟨rfl, rfl, rfl, rfl, rfl, rfl⟩

theorem nextOpcode_of_step_a_ne {s t : State} (h : step s = .next t) (ne : t.a ≠ s.a) :
    s.nextOpcode = 0xA9 ∨ s.nextOpcode = 0xAD := by
  rcases step_onlyHalt_or_opcode h with ⟨halt, rfl⟩ | ⟨i, op, meaning⟩
  · exact absurd rfl ne
  · rw [op]
    exact (opcode_of_exec_a_ne meaning ne).imp (congrArg Opcode.byte) (congrArg Opcode.byte)

theorem nextOpcode_of_step_flags_ne {s t : State} (h : step s = .next t) (ne : t.flags ≠ s.flags) :
    s.nextOpcode = 0x78 := by
  rcases step_onlyHalt_or_opcode h with ⟨halt, rfl⟩ | ⟨i, op, meaning⟩
  · exact absurd rfl ne
  · have after := exec_flags meaning
    cases i with
    | sei => exact op
    | braDisp | stzAddr | ldaImm | ldaAddr => exact absurd after ne

theorem nextOpcode_of_step_storage_ne {s t : State} (h : step s = .next t)
    (ne : t.ram ≠ s.ram ∨ t.mapper ≠ s.mapper) : s.nextOpcode = 0x9C := by
  rcases step_onlyHalt_or_opcode h with ⟨halt, rfl⟩ | ⟨i, op, meaning⟩
  · exact ne.elim (absurd rfl) (absurd rfl)
  · exact op.trans (congrArg Opcode.byte (opcode_of_exec_storage_ne meaning ne))

/-! ### Why a step halts (R150 to R152) -/

/-- A bus write raises at a pair of the Mapper only, and with nothing changed. -/
theorem State.busWrite_raised {s t : State} {k : Byte} {o : Word} {b : Byte} {f : Fault}
    (h : s.busWrite k o b = .raised f t) :
    busDecode k o = .mapper k o ∧ f = .unsupportedMapperWrite k o b ∧ t = s := by
  rcases s.busWrite_cases k o b with ⟨i, -, ram⟩ | ⟨m, -, -, mapper⟩ | ⟨hd, -, refuses⟩
  · cases ram.symm.trans h
  · cases mapper.symm.trans h
  · cases refuses.symm.trans h; exact ⟨hd, rfl, rfl⟩

theorem State.busWrite_done_halt {s t : State} {k : Byte} {o : Word} {b : Byte} (h : s.busWrite k o b = .done t) :
    t.halt = s.halt := by
  have same := (s.busWrite_same k o b).eq
  rw [h, Access.state] at same
  rw [same]

/-- STZ halts a running core at a refused byte of its store. -/
theorem exec_stzAddr_halted {s t : State} {addr : Word} {f : Fault} (hr : s.halt = .running)
    (h : exec (.stzAddr addr) s = .next t) (halted : t.halt = .halted f) :
    ∃ o : Word, (o = addr ∨ (s.flag .m = true ∧ o = addr + 1)) ∧
      busDecode s.db o = .mapper s.db o ∧ f = .unsupportedMapperWrite s.db o 0 := by
  cases first : s.busWrite s.db addr 0 with
  | raised g u =>
    obtain ⟨hd, hg, -⟩ := State.busWrite_raised first
    cases (exec_stzAddr_of_raised first).symm.trans h
    cases halted
    exact ⟨addr, .inl rfl, hd, hg⟩
  | done u =>
    have u_running : u.halt = .running := (State.busWrite_done_halt first).trans hr
    cases hm : s.flag .m with
    | false =>
      cases (exec_stzAddr_w8 hm first).symm.trans h
      cases u_running.symm.trans halted
    | true =>
      cases second : u.busWrite s.db (addr + 1) 0 with
      | raised g v =>
        obtain ⟨hd, hg, -⟩ := State.busWrite_raised second
        cases (exec_stzAddr_of_done hm first second).symm.trans h
        cases halted
        exact ⟨addr + 1, .inr ⟨rfl, rfl⟩, hd, hg⟩
      | done v =>
        cases (exec_stzAddr_of_done hm first second).symm.trans h
        cases ((State.busWrite_done_halt second).trans u_running).symm.trans halted

/-- Only STZ halts the core. -/
theorem eq_stzAddr_of_exec_halted {i : Instr} {s t : State} {f : Fault} (hr : s.halt = .running)
    (h : exec i s = .next t) (halted : t.halt = .halted f) : ∃ addr, i = .stzAddr addr := by
  cases i with
  | stzAddr addr => exact ⟨addr, rfl⟩
  | sei | braDisp | ldaImm | ldaAddr => cases h; cases hr.symm.trans halted

end Sys2Proof.Machine

namespace Sys2Proof.Proofs

open Sys2Proof.Machine

/-- Settles O27: the registers a step keeps, its update of the flags, and the opcode behind each of the other writes. -/
theorem eachPieceOfStateIsWrittenOnlyAsListed : Obligations.EachPieceOfStateIsWrittenOnlyAsListed := by
  intro s t h
  obtain ⟨hx, hy, hdp, hsp, hdb, hpb⟩ := step_keeps_registers h
  obtain ⟨φ, atMostI, flags_eq, -⟩ := step_withUnread h
  refine ⟨hx, hy, hdp, hsp, hdb, hpb, fun f hf => ?others, fun hi => ?noIrq,
    nextOpcode_of_step_a_ne h, nextOpcode_of_step_flags_ne h, nextOpcode_of_step_storage_ne h⟩
  case others => rw [State.flag, flags_eq]; exact atMostI.others s.flags f hf
  case noIrq => rw [State.flag, flags_eq]; exact atMostI.noIrq s.flags hi

/-- Settles O28: a running core halts where no row is found, or in the one meaning that can raise. -/
theorem aStepHaltsForOneOfTwoReasons : Obligations.AStepHaltsForOneOfTwoReasons := by
  intro s t f hr h halted
  rcases step_cases_decode s with ⟨g, haltedBefore, -⟩ | ⟨-, noRow, hs⟩ | ⟨-, i, rest, hd, hs⟩
  · cases hr.symm.trans haltedBefore
  · refine .inl ⟨?_, ?_⟩
    · simpa [State.nextOpcode] using Opcode.ofByte_eq_none_iff.1 noRow
    · cases hs.symm.trans h
      cases halted
      exact ⟨rfl, rfl⟩
  · have meaning : exec i (s.advance i.length) = .next t := hs.symm.trans h
    obtain ⟨addr, rfl⟩ := eq_stzAddr_of_exec_halted (s := s.advance i.length) hr meaning halted
    obtain ⟨o, isByte, target, reason⟩ := exec_stzAddr_halted (s := s.advance 3) hr meaning halted
    exact .inr ⟨State.nextOpcode_of_decode hd, (exec_stzAddr_same meaning).1,
      addr, o, State.operand_of_decode_stzAddr hd, isByte, target, reason⟩

/-- Settles O31: the step with the flags as they are and the four registers changed. -/
theorem idleRegistersAreNeverRead : Obligations.IdleRegistersAreNeverRead := by
  intro s t x y dp sp h
  obtain ⟨φ, -, flags_eq, same_step⟩ := step_withUnread h
  have stepped := same_step ⟨x, y, dp, sp, s.flags⟩ rfl
  rw [← flags_eq] at stepped
  exact stepped

/-- Settles O32: the step with the four registers as they are, which it keeps, and the flags changed. -/
theorem flagsOtherThanMAreNeverRead : Obligations.FlagsOtherThanMAreNeverRead := by
  intro s t g sameM h
  obtain ⟨φ, atMostI, -, same_step⟩ := step_withUnread h
  have registers : t.withUnread ⟨s.x, s.y, s.dp, s.sp, φ g⟩ = { t with flags := φ g } := by
    rw [step_frame h]
    rfl
  have stepped := same_step ⟨s.x, s.y, s.dp, s.sp, g⟩ sameM
  rw [registers] at stepped
  exact ⟨φ g, stepped, atMostI.others g⟩

end Sys2Proof.Proofs
end
